-- ==== Sys2Proof/Word.lean ====
section
/-! DEFINITION. The word of the machine: one 8-bit cell value (R6: W = 8; R7: unsigned; R10: the
source calls opcodes, operands and cell values alike "words"). -/

namespace Sys2Proof

/-- The value of a memory cell, a general register or the stack pointer: an unsigned 8-bit value
(R6, R7, R11, R19, R31). -/
abbrev Byte := BitVec 8

end Sys2Proof
end

