-- ==== Sys2Proof/Config.lean ====
section
/-! DEFINITION. What is fixed for a run and is not state (R6, R35), and the one free value of the
model: the wording of a diagnostic line (R106). The opcode values, which R35 also counts here, stand
in Sys2Proof/Decode.lean as the opcode map. -/

namespace Sys2Proof.Config

/-- `N`, the number of memory cells: the addresses are 0 to 255 (R6, R31, R37). -/
abbrev memorySize : Nat := 256

/-- `EXIT_FAULT`, the exit status after a fatal condition (R6, R33: the value 1 is the spec's
decision D15, which a model may also take as a parameter: log entry 7, UNVERIFIED). -/
def exitFault : Nat := 1

/-- FREE VALUE (log entry 8, DESIGN CHOICE): the words of the diagnostic line about a fatal condition,
for its code (R94), the `pc` and the `info` of its record. R106: the text "is not fixed by the source". -/
opaque diagnosticWording : (code pc info : Nat) → List Char

end Sys2Proof.Config
end

