-- ==== Sys2Proof/Machine/State.lean ====
section
/-! DEFINITION. The whole architectural state (R34) as plain data, the state after reset (R107), and
the reasons for which a step gives no next state. -/

namespace Sys2Proof.Machine

/-- The four states of the flag register `fl` (R24). No bit pattern is fixed (R27). -/
inductive Flag where
  /-- No comparison since reset. -/
  | none
  | equal
  | lessThan
  | greaterThan
  deriving DecidableEq, Repr

/-- The engine state `run` (R29). HALTED and FAULTED are terminal. -/
inductive RunState where
  | running
  | halted
  | faulted
  deriving DecidableEq, Repr

/-- The fatal kinds a step can raise (R94). `UnsupportedALUOperation` is raised by nothing (R59) and
has no constructor (log entry 12, DEDUCED). -/
inductive FatalKind where
  | invalidInstruction
  | memoryOutOfRange
  | invalidRegister
  deriving DecidableEq, Repr

/-- The fault record `(kind, pc, info)` (R30). `info` is the opcode byte, the register operand byte or
the out-of-range address, as a number. -/
structure FaultRecord where
  kind : FatalKind
  pc : Nat
  info : Nat
  deriving DecidableEq, Repr

/-- The output events (R32). -/
inductive Event where
  /-- `Print(v)`. -/
  | print (v : Byte)
  /-- `Diagnostic(kind, pc, info)`. -/
  | diagnostic (record : FaultRecord)
  deriving DecidableEq, Repr

/-- The memory array (R31): the cells that differ from 0, which every cell holds after reset, with
rising addresses. An address that is not listed reads as 0 (log entry 4, DESIGN CHOICE). -/
abbrev Memory := List Host.Cell

/-- What an unlisted address reads as: memory is "zero-initialized at construction" (R31). -/
abbrev Memory.unlisted : Byte := 0

/-- The canonical form: addresses strictly rising and inside the memory, no cell listed that reads as
an unlisted one. -/
abbrev Memory.wf (m : Memory) : Prop :=
  m.Pairwise (fun c d => c.1 < d.1) ∧ ∀ c ∈ m, c.1 < Config.memorySize ∧ c.2 ≠ Memory.unlisted

/-- The complete architectural state of the block (R34): nothing else persists between steps. -/
structure State where
  /-- The general registers `x[0]` to `x[7]` (R11). -/
  x : Vector Byte 8
  /-- The stack pointer, a register of its own (R16, R19). -/
  sp : Byte
  /-- The program counter, a natural number that never wraps (R20). -/
  pc : Nat
  /-- The flag register (R24). -/
  fl : Flag
  /-- The engine state (R29). -/
  run : RunState
  /-- The fault record, empty until a fatal step (R30). -/
  fault : Option FaultRecord
  /-- The memory array (R31). -/
  mem : Memory
  /-- The output event stream, oldest event first (R32). -/
  out : List Event
  deriving DecidableEq, Repr

/-- The state after reset, before the program load (R107). -/
def State.reset : State where
  x := Vector.replicate 8 0
  sp := 0
  pc := 0
  fl := .none
  run := .running
  fault := none
  mem := []
  out := []

/-- Why a step gives no next state. Both are raised by `step` alone, in a state that no step is taken
from (R63), and both are safe: the block takes no step there either (log entry 2, DEDUCED). The fatal conditions
of R94 are none of these: they are next states, in which `run` is FAULTED (R95, log entry 1, DEDUCED). -/
inductive Fault where
  /-- Raised by `step` when `run` = HALTED: "no step is taken" (R29, R63, R105). Safe. -/
  | haltedTakesNoStep
  /-- Raised by `step` when `run` = FAULTED: "no step is taken" (R29, R63, R98). Safe. -/
  | faultedTakesNoStep
  deriving DecidableEq, Repr

/-- Why an instruction has no meaning. -/
inductive Refusal where
  /-- The form of an arm of `exec` without a meaning. No arm has it: every instruction is modelled.
  Safe. -/
  | notModelled (mnemonic : String)
  deriving DecidableEq, Repr

/-- What a meaning or a step answers. -/
abbrev Result := Host.Outcome State Fault Refusal

end Sys2Proof.Machine
end

