-- ==== Sys2Proof/Machine/Ops.lean ====
section
/-! DEFINITION. The named operations over memory, registers, output and the program counter, and the
one fatal step that every exceptional condition takes (R95). There is no return from it (R98). -/

namespace Sys2Proof.Machine

/-! ### Memory -/

/-- The value of a cell (R39, R46): what is listed for it, else 0. -/
def Memory.read (m : Memory) (addr : Nat) : Byte :=
  ((m.find? fun c => c.1 == addr).map Prod.snd).getD Memory.unlisted

/-- Set one cell and change nothing else (R39): the cells below it, the cell unless it reads as an
unlisted one, the cells above it. -/
def Memory.write (m : Memory) (addr : Nat) (v : Byte) : Memory :=
  m.filter (fun c => decide (c.1 < addr)) ++
    ((if v = Memory.unlisted then [] else [(addr, v)]) ++ m.filter (fun c => decide (addr < c.1)))

/-- Set consecutive cells from `base` on, in order; bytes past the last cell are dropped. -/
def Memory.writeBytes (m : Memory) (base : Nat) : List Byte → Memory
  | [] => m
  | v :: vs =>
    Memory.writeBytes (if base < Config.memorySize then m.write base v else m) (base + 1) vs

/-! ### Single pieces of state -/

/-- `x[i]` (R8, R12). -/
def State.reg (s : State) (i : Fin 8) : Byte :=
  s.x[i]

/-- `x[i] <- v` (R8): no register is an alias of another or hardwired (R11). -/
def State.setReg (s : State) (i : Fin 8) (v : Byte) : State :=
  { s with x := s.x.set i v }

/-- `sp <- v`: no general register changes with it (R16). -/
def State.setSp (s : State) (v : Byte) : State :=
  { s with sp := v }

/-- `fl <- f`: `fl` is replaced whole (R81). -/
def State.setFl (s : State) (f : Flag) : State :=
  { s with fl := f }

/-- The memory array replaced. -/
def State.setMem (s : State) (m : Memory) : State :=
  { s with mem := m }

/-- `emit(e)`: append an event to the output stream (R8, R32). -/
def State.emit (s : State) (e : Event) : State :=
  { s with out := s.out ++ [e] }

/-- The default advance past an instruction of `k` operand bytes: `pc <- pc + 1 + k` (R69). -/
def State.advance (s : State) (k : Nat) : State :=
  { s with pc := s.pc + 1 + k }

/-- `pc <- target` of a taken jump: an absolute address in 0 to 255 (R93). -/
def State.jump (s : State) (target : Byte) : State :=
  { s with pc := target.toNat }

/-- `run <- HALTED` (R66, R92). -/
def State.halt (s : State) : State :=
  { s with run := .halted }

/-! ### Fatal conditions -/

/-- The code of a fatal kind (R94). -/
def FatalKind.code : FatalKind → Nat
  | .invalidInstruction => 1
  | .memoryOutOfRange => 2
  | .invalidRegister => 3

/-- `raise Fatal(kind, pc, info)` (R95): record the fault, emit the diagnostic, stop; every register,
`sp`, `fl`, every memory cell and `pc` keep their values. `pc` is that of the failing step (R30). -/
def State.raiseFatal (s : State) (kind : FatalKind) (info : Nat) : State :=
  let record : FaultRecord := ⟨kind, s.pc, info⟩
  { s with fault := some record, out := s.out ++ [.diagnostic record], run := .faulted }

/-! ### Checked memory accesses -/

/-- The byte at an address, none outside the memory (R39). -/
def State.cell? (s : State) (addr : Nat) : Option Byte :=
  if addr < Config.memorySize then some (s.mem.read addr) else none

/-- `MemRead(addr, 1)` and what follows it; `MemoryOutOfRange` outside the memory (R39, R43). -/
def State.memRead (s : State) (addr : Nat) (k : Byte → Result) : Result :=
  match s.cell? addr with
  | some v => k v
  | none => .next (s.raiseFatal .memoryOutOfRange addr)

/-- `MemWrite(addr, 1, v)` and what follows it; `MemoryOutOfRange` outside the memory (R39, R43). -/
def State.memWrite (s : State) (addr : Nat) (v : Byte) (k : State → Result) : Result :=
  if addr < Config.memorySize then k (s.setMem (s.mem.write addr v))
  else .next (s.raiseFatal .memoryOutOfRange addr)

end Sys2Proof.Machine
end

