-- ==== Sys2Proof/Machine/Flags.lean ====
section
/-! DEFINITION. The one flag computation of the block: the outcome of a comparison (R81, R83), and the
condition both conditional jumps test (R90, R91). -/

namespace Sys2Proof.Machine

/-- The flag state CMP leaves: a comparison of the unsigned values 0 to 255 (R81). -/
def compareFlag (va vb : Byte) : Flag :=
  if va.toNat = vb.toNat then .equal
  else if va.toNat < vb.toNat then .lessThan
  else .greaterThan

/-- Does `fl` hold EQUAL? In NONE, before any CMP, it does not (R90, R91). -/
def State.flagIsEqual (s : State) : Bool :=
  s.fl == .equal

end Sys2Proof.Machine
end

