-- ==== Sys2Proof/Machine/Operands.lean ====
section
/-! DEFINITION. The operand forms: register operands with their check (R55, R68) and the effective
addresses of the stack, the one addressing mode of the block (R84 to R86). -/

namespace Sys2Proof.Machine

/-- The register an operand byte names: the whole byte is the index, and 8 to 255 name none (R55). -/
def regIndex? (r : Byte) : Option (Fin 8) :=
  if h : r.toNat < 8 then some ⟨r.toNat, h⟩ else none

/-- Check one register operand and go on with its index (R68): `InvalidRegister` with the operand byte
if it names no register. -/
def State.withReg (s : State) (r : Byte) (k : Fin 8 → Result) : Result :=
  match regIndex? r with
  | some i => k i
  | none => .next (s.raiseFatal .invalidRegister r.toNat)

/-- Check two register operands, `a` first, both before the handler runs (R68, R97). -/
def State.withRegs (s : State) (a b : Byte) (k : Fin 8 → Fin 8 → Result) : Result :=
  s.withReg a fun i => s.withReg b fun j => k i j

/-- A result narrowed to the cell width: `v mod 256` (R14). -/
def wrap (v : Nat) : Byte :=
  BitVec.ofNat 8 v

/-- `(sp - 1) mod 256` (R19, R85). -/
def spBelow (sp : Byte) : Byte :=
  sp - 1

/-- `(sp + 1) mod 256` (R19, R86). -/
def spAbove (sp : Byte) : Byte :=
  sp + 1

/-- The cell PUSH writes: the one `sp` holds before the decrement (R84, R85). -/
def State.pushAddress (s : State) : Nat :=
  s.sp.toNat

/-- The cell POP reads: the one `sp` holds after the increment (R84, R86). -/
def State.popAddress (s : State) : Nat :=
  (spAbove s.sp).toNat

end Sys2Proof.Machine
end

