-- ==== Sys2Proof/Machine/Alu.lean ====
section
/-! DEFINITION. The ALU (R78) and the instructions that use it: ADD, MUL and CMP (R79 to R81). -/

namespace Sys2Proof.Machine

/-- The operations of the ALU (R78): the decoder sends these three only, so an unsupported one cannot
arise (R59). -/
inductive AluOp where
  | add
  | mul
  | cmp
  deriving DecidableEq, Repr

/-- `apply(op, a, b)` (R78): both registers are read before anything is written. ADD and MUL are exact
operations narrowed to 8 bits (R79, R80, R82); CMP writes `fl` and no register (R81). -/
def State.aluApply (s : State) (op : AluOp) (a b : Fin 8) : State :=
  let va := s.reg a
  let vb := s.reg b
  match op with
  | .add => s.setReg a (wrap (va.toNat + vb.toNat))
  | .mul => s.setReg a (wrap (va.toNat * vb.toNat))
  | .cmp => s.setFl (compareFlag va vb)

/-- ADD (R79): `x[op.a] <- (va + vb) mod 256`. -/
def execAdd (a b : Byte) (s : State) : Result :=
  s.withRegs a b fun i j => .next ((s.aluApply .add i j).advance 2)

/-- MUL (R80): `x[op.a] <- (va * vb) mod 256`. -/
def execMul (a b : Byte) (s : State) : Result :=
  s.withRegs a b fun i j => .next ((s.aluApply .mul i j).advance 2)

/-- CMP (R81): `fl` becomes the outcome of comparing `x[op.a]` with `x[op.b]`. -/
def execCmp (a b : Byte) (s : State) : Result :=
  s.withRegs a b fun i j => .next ((s.aluApply .cmp i j).advance 2)

end Sys2Proof.Machine
end

