-- ==== Sys2Proof/Machine/Control.lean ====
section
/-! DEFINITION. Control transfer and halt: JMP, JEQ, JNE and HLT (R89 to R93). -/

namespace Sys2Proof.Machine

/-- JMP (R89): `pc <- x[op.a]`. The target is not checked here; the next step fetches it. -/
def execJmp (a : Byte) (s : State) : Result :=
  s.withReg a fun i => .next (s.jump (s.reg i))

/-- JEQ (R90): taken iff `fl` = EQUAL; the register is checked whether or not it is taken. -/
def execJeq (a : Byte) (s : State) : Result :=
  s.withReg a fun i => .next (if s.flagIsEqual then s.jump (s.reg i) else s.advance 1)

/-- JNE (R91): taken iff `fl` ≠ EQUAL; the register is checked whether or not it is taken. -/
def execJne (a : Byte) (s : State) : Result :=
  s.withReg a fun i => .next (if s.flagIsEqual then s.advance 1 else s.jump (s.reg i))

/-- HLT (R66, R92): `run <- HALTED`; `pc` is not advanced. -/
def execHlt (s : State) : Result :=
  .next s.halt

end Sys2Proof.Machine
end

