-- ==== Sys2Proof/Machine/Data.lean ====
section
/-! DEFINITION. Data movement and output: LDI and PRN (R75, R76). -/

namespace Sys2Proof.Machine

/-- LDI (R75): `x[op.a] <- op.b`, the immediate unchanged (R56). -/
def execLdi (a b : Byte) (s : State) : Result :=
  s.withReg a fun i => .next ((s.setReg i b).advance 2)

/-- PRN (R76): `emit(Print(x[op.a]))`. -/
def execPrn (a : Byte) (s : State) : Result :=
  s.withReg a fun i => .next ((s.emit (.print (s.reg i))).advance 1)

end Sys2Proof.Machine
end

