-- ==== Sys2Proof/Machine/Stack.lean ====
section
/-! DEFINITION. The stack: PUSH and POP (R84 to R86), the only data accesses to memory (R38). -/

namespace Sys2Proof.Machine

/-- PUSH (R85): `MemWrite(sp, 1, x[op.a])`, then `sp <- (sp - 1) mod 256`. -/
def execPush (a : Byte) (s : State) : Result :=
  s.withReg a fun i =>
    s.memWrite s.pushAddress (s.reg i) fun t => .next ((t.setSp (spBelow t.sp)).advance 1)

/-- POP (R86): `x[op.a] <- MemRead((sp + 1) mod 256, 1)`, then `sp <- (sp + 1) mod 256`. -/
def execPop (a : Byte) (s : State) : Result :=
  s.withReg a fun i =>
    s.memRead s.popAddress fun v => .next (((s.setReg i v).setSp (spAbove s.sp)).advance 1)

end Sys2Proof.Machine
end

