-- ==== Sys2Proof/Syntax.lean ====
section
/-! DEFINITION. The eleven instructions, one constructor per row of spec/opcode_table.json (R3, R53). -/

namespace Sys2Proof

/-- A decoded instruction: the opcode with its operand bytes (R51, R52). `a` and `b` are the whole
operand bytes as fetched. A register operand is a byte here, because R55 and R68 give the bytes 8 to
255 an effect of their own, after decoding and operand fetch (log entry 3, DEDUCED). -/
inductive Instr where
  /-- LDI Ra, b (format RI, R75). -/
  | ldi (a b : Byte)
  /-- PRN Ra (format R, R76). -/
  | prn (a : Byte)
  /-- ADD Ra, Rb (format RR, R79). -/
  | add (a b : Byte)
  /-- MUL Ra, Rb (format RR, R80). -/
  | mul (a b : Byte)
  /-- CMP Ra, Rb (format RR, R81). -/
  | cmp (a b : Byte)
  /-- PUSH Ra (format R, R85). -/
  | push (a : Byte)
  /-- POP Ra (format R, R86). -/
  | pop (a : Byte)
  /-- JMP Ra (format R, R89). -/
  | jmp (a : Byte)
  /-- JEQ Ra (format R, R90). -/
  | jeq (a : Byte)
  /-- JNE Ra (format R, R91). -/
  | jne (a : Byte)
  /-- HLT (format Z, R92). -/
  | hlt
  deriving DecidableEq, Repr

end Sys2Proof
end

