-- ==== Sys2Proof/Decode.lean ====
section
/-! DEFINITION. The opcode map, the decoder (total on any bytes) and the encoder (R51 to R58, R60). -/

namespace Sys2Proof

/-- The four formats (R52), each with the instruction its operand bytes make. -/
inductive Shape where
  /-- Format Z: the opcode byte alone. -/
  | z (i : Instr)
  /-- Format R: `a` is a register index. -/
  | r (make : Byte → Instr)
  /-- Format RR: `a` and `b` are register indices. -/
  | rr (make : Byte → Byte → Instr)
  /-- Format RI: `a` is a register index, `b` an 8-bit immediate. -/
  | ri (make : Byte → Byte → Instr)

/-- `k`, the declared operand count of a format (R51, R53). -/
def Shape.operandCount : Shape → Nat
  | .z _ => 0
  | .r _ => 1
  | .rr _ => 2
  | .ri _ => 2

/-- One row of the opcode map. -/
structure OpcodeRow where
  mnemonic : String
  code : Byte
  shape : Shape

/-- The opcode map of R53, row by row. The byte values are the spec's decision D3 (log entry 5, UNVERIFIED). -/
def opcodeMap : List OpcodeRow :=
  [ ⟨"LDI", 0b10000010, .ri .ldi⟩,
    ⟨"PRN", 0b01000111, .r .prn⟩,
    ⟨"ADD", 0b10100000, .rr .add⟩,
    ⟨"MUL", 0b10100010, .rr .mul⟩,
    ⟨"CMP", 0b10100111, .rr .cmp⟩,
    ⟨"PUSH", 0b01000101, .r .push⟩,
    ⟨"POP", 0b01000110, .r .pop⟩,
    ⟨"JMP", 0b01010100, .r .jmp⟩,
    ⟨"JEQ", 0b01010101, .r .jeq⟩,
    ⟨"JNE", 0b01010110, .r .jne⟩,
    ⟨"HLT", 0b00000001, .z .hlt⟩ ]

/-- The whole opcode byte is matched against the map (R53: mask 0xFF); the operand count comes from
the row, not from bits of the byte (R54). -/
def lookupOpcode (op : Byte) : Option Shape :=
  (opcodeMap.find? fun row => row.code == op).map OpcodeRow.shape

/-- What the decoder answers. -/
inductive Decoded where
  /-- The bytes begin with this instruction. -/
  | instr (i : Instr)
  /-- The byte at this offset from the instruction's address is needed and does not exist. -/
  | missingByte (offset : Nat)
  /-- The opcode byte is in no row of the map (R57). -/
  | invalidOpcode (op : Byte)
  deriving DecidableEq, Repr

/-- Read the byte at an offset and go on with it. -/
def withByte (read : Nat → Option Byte) (offset : Nat) (k : Byte → Decoded) : Decoded :=
  match read offset with
  | none => .missingByte offset
  | some v => k v

/-- Decode one instruction from a reader of the bytes at increasing offsets from its address (R40,
R60). The order is that of R64 to R67: opcode byte, opcode map, operand `a`, operand `b`; exactly `k`
operand bytes are read, and none of an unknown opcode (R57) or of HLT (R66). -/
def decodeWith (read : Nat → Option Byte) : Decoded :=
  withByte read 0 fun op =>
    match lookupOpcode op with
    | none => .invalidOpcode op
    | some (.z i) => .instr i
    | some (.r make) => withByte read 1 fun a => .instr (make a)
    | some (.rr make) => withByte read 1 fun a => withByte read 2 fun b => .instr (make a b)
    | some (.ri make) => withByte read 1 fun a => withByte read 2 fun b => .instr (make a b)

/-- Decode the instruction at the head of a list of bytes, the opcode byte first. -/
def decode (bytes : List Byte) : Decoded :=
  decodeWith fun offset => bytes[offset]?

/-- The opcode byte of an instruction (R53). -/
def Instr.opcode : Instr → Byte
  | .ldi _ _ => 0x82
  | .prn _ => 0x47
  | .add _ _ => 0xA0
  | .mul _ _ => 0xA2
  | .cmp _ _ => 0xA7
  | .push _ => 0x45
  | .pop _ => 0x46
  | .jmp _ => 0x54
  | .jeq _ => 0x55
  | .jne _ => 0x56
  | .hlt => 0x01

/-- The operand bytes of an instruction, `a` before `b` (R40, R52). -/
def Instr.operands : Instr → List Byte
  | .ldi a b => [a, b]
  | .prn a => [a]
  | .add a b => [a, b]
  | .mul a b => [a, b]
  | .cmp a b => [a, b]
  | .push a => [a]
  | .pop a => [a]
  | .jmp a => [a]
  | .jeq a => [a]
  | .jne a => [a]
  | .hlt => []

/-- The encoder: an opcode byte followed by its operand bytes (R51). -/
def encode (i : Instr) : List Byte :=
  i.opcode :: i.operands

/-- The first three bytes of a table word, bit 0 being the least significant bit of the first byte;
every bit at `nbits` and above is 0. -/
def tableWordBytes (nbits w : Nat) : List Byte :=
  let v := w % 2 ^ nbits
  [BitVec.ofNat 8 v, BitVec.ofNat 8 (v / 2 ^ 8), BitVec.ofNat 8 (v / 2 ^ 16)]

/-- The instruction the decoder reads from a table word: its bytes at increasing addresses (R40). -/
def decodeTableWord (nbits w : Nat) : Option Instr :=
  match decode (tableWordBytes nbits w) with
  | .instr i => some i
  | .missingByte _ => none
  | .invalidOpcode _ => none

end Sys2Proof
end

