-- ==== Sys2Proof/Machine/Fetch.lean ====
section
/-! DEFINITION. When a step is taken (R63), and the fetch and decode that every step begins with (R64
to R67). -/

namespace Sys2Proof.Machine

/-- The reason why no step is taken, none while `run` = RUNNING (R63). -/
def State.noStep? (s : State) : Option Fault :=
  match s.run with
  | .running => none
  | .halted => some .haltedTakesNoStep
  | .faulted => some .faultedTakesNoStep

/-- What the fetch of a step gives: an instruction, or the fatal condition to raise. -/
inductive Fetched where
  | instr (i : Instr)
  | fatal (kind : FatalKind) (info : Nat)
  deriving DecidableEq, Repr

/-- Fetch and decode the instruction at `pc`. A byte outside the memory raises `MemoryOutOfRange` with
its address (R64, R67); an opcode byte outside the map raises `InvalidInstruction` with that byte (R65). -/
def State.fetch (s : State) : Fetched :=
  match decodeWith fun offset => s.cell? (s.pc + offset) with
  | .instr i => .instr i
  | .missingByte offset => .fatal .memoryOutOfRange (s.pc + offset)
  | .invalidOpcode op => .fatal .invalidInstruction op.toNat

end Sys2Proof.Machine
end

