-- ==== Sys2Proof/Machine/Step.lean ====
section
/-! DEFINITION. The whole step (R70), and the placing of one instruction where the next step fetches. -/

namespace Sys2Proof.Machine

/-- One step (R70): none unless `run` = RUNNING (R63); the fetch and decode (R64 to R67); then the
register check and the handler of the instruction (R68, R69), or the fatal step (R95). -/
def step (s : State) : Host.Outcome State Fault Refusal :=
  match s.noStep? with
  | some stop => .fault stop
  | none =>
    match s.fetch with
    | .instr i => exec i s
    | .fatal kind info => .next (s.raiseFatal kind info)

/-- The state with a table word's three bytes stored at `pc`, and RUNNING, since no other state fetches
(log entry 9, DESIGN CHOICE). -/
def State.withFetchWord (s : State) (nbits w : Nat) : State :=
  { s with mem := s.mem.writeBytes s.pc (tableWordBytes nbits w), run := .running }

end Sys2Proof.Machine
end

