-- ==== Sys2Proof/Machine/Text.lean ====
section
/-! DEFINITION. The texts the spec fixes: the line of a printed value (R77) and the line syntax of one
instruction (R61). -/

namespace Sys2Proof.Machine

/-- The decimal digits of a number below 1000, without leading zeros; 0 is one digit (R77). -/
def decimalDigits (n : Nat) : List Char :=
  if n < 10 then [Nat.digitChar n]
  else if n < 100 then [Nat.digitChar (n / 10), Nat.digitChar (n % 10)]
  else [Nat.digitChar (n / 100), Nat.digitChar (n / 10 % 10), Nat.digitChar (n % 10)]

/-- The line of one PRN: the decimal digits of the value and one newline (R77). -/
def printLine (v : Byte) : List Char :=
  decimalDigits v.toNat ++ ['\n']

/-- `Rn`: the register of a register operand byte (R61: "`Rn` encodes as the byte `n`"). -/
def registerText (r : Byte) : List Char :=
  'R' :: decimalDigits r.toNat

/-- Two operands, separated by a comma (R61). -/
def operandPair (first second : List Char) : List Char :=
  first ++ [',', ' '] ++ second

/-- An instruction in the spec's line syntax: the mnemonic followed by its operands (R61). -/
def assemblyLine : Instr → List Char
  | .ldi a b => ['L', 'D', 'I', ' '] ++ operandPair (registerText a) (decimalDigits b.toNat)
  | .prn a => ['P', 'R', 'N', ' '] ++ registerText a
  | .add a b => ['A', 'D', 'D', ' '] ++ operandPair (registerText a) (registerText b)
  | .mul a b => ['M', 'U', 'L', ' '] ++ operandPair (registerText a) (registerText b)
  | .cmp a b => ['C', 'M', 'P', ' '] ++ operandPair (registerText a) (registerText b)
  | .push a => ['P', 'U', 'S', 'H', ' '] ++ registerText a
  | .pop a => ['P', 'O', 'P', ' '] ++ registerText a
  | .jmp a => ['J', 'M', 'P', ' '] ++ registerText a
  | .jeq a => ['J', 'E', 'Q', ' '] ++ registerText a
  | .jne a => ['J', 'N', 'E', ' '] ++ registerText a
  | .hlt => ['H', 'L', 'T']

end Sys2Proof.Machine
end

