-- ==== Sys2Proof/Machine/HostView.lean ====
section
/-! DEFINITION. The host's side of the block: the program load before the first step (R108 to R110) and
what the host sees of a run (R33, R77, R106, R117). -/

namespace Sys2Proof.Machine

/-- A program can be loaded only if it has at most 256 words, each in 0 to 255 (R109). -/
def loadable (words : List Nat) : Bool :=
  decide (words.length ≤ Config.memorySize) && words.all fun w => decide (w < 256)

/-- The state before the first step, with the program placed from address 0 on (R108); none for a
program the block refuses, which has no run (R109). -/
def loadProgram (words : List Nat) : Option State :=
  if loadable words then
    some (State.reset.setMem (State.reset.mem.writeBytes 0 (words.map (BitVec.ofNat 8))))
  else none

/-- The exit status the block presents (R33): none while it runs. -/
def State.exitStatus (s : State) : Option Nat :=
  match s.run with
  | .running => none
  | .halted => some 0
  | .faulted => some Config.exitFault

/-- A run is finished exactly when `run` ≠ RUNNING (R117). -/
def State.finished (s : State) : Bool :=
  s.run != .running

/-- A line of text as the host sees it. A diagnostic line identifies its fault record; its words are
free (R106, log entry 8, DESIGN CHOICE). -/
inductive HostLine where
  | printed (text : List Char)
  | diagnostic (words : List Char) (record : FaultRecord)
  deriving DecidableEq, Repr

/-- The line the host sees for one event (R77, R106). -/
def hostLine : Event → HostLine
  | .print v => .printed (printLine v)
  | .diagnostic r => .diagnostic (Config.diagnosticWording r.kind.code r.pc r.info) r

/-- The lines the host sees, in the order of the events (R77). -/
def State.hostLines (s : State) : List HostLine :=
  s.out.map hostLine

end Sys2Proof.Machine
end

