-- ==== Sys2Proof/WellFormed.lean ====
section
/-! DEFINITION. Which instructions are well formed: every operand byte that names a register is in
0 to 7 (R55). LDI's second operand is an immediate and is not checked (R56, R68). -/

namespace Sys2Proof

/-- The operand bytes that name a register, in the order in which they are checked (R68:
`register_operands(op)`, "in order a, b"). -/
def Instr.registerOperands : Instr → List Byte
  | .ldi a _ => [a]
  | .prn a => [a]
  | .add a b => [a, b]
  | .mul a b => [a, b]
  | .cmp a b => [a, b]
  | .push a => [a]
  | .pop a => [a]
  | .jmp a => [a]
  | .jeq a => [a]
  | .jne a => [a]
  | .hlt => []

/-- R55: "register indices used in decoded operands are in [0, 8)". -/
def Instr.wellFormed (i : Instr) : Bool :=
  i.registerOperands.all fun r => decide (r.toNat < 8)

end Sys2Proof
end

