-- ==== Sys2Proof/Safety.lean ====
section
/-! DEFINITION. The terms in which claims are stated: what stands in memory at `pc`, the state a fatal
step leaves, the invariant of a run, and the step as the spec's pseudocode writes it (R70). They are
written from the spec; of the model's operations they use the read and the write of one cell, and `exec`
where several PUSHes are run one after another. -/

namespace Sys2Proof.Machine

/-- The eleven opcode bytes in the decimal column of R53. -/
abbrev opcodeBytes : List Nat :=
  [130, 71, 160, 162, 167, 69, 70, 84, 85, 86, 1]

/-- The opcode bytes with one operand byte or two (R53: `k` ≥ 1). -/
abbrev operandOpcodes : List Nat :=
  [130, 71, 160, 162, 167, 69, 70, 84, 85, 86]

/-- The opcode bytes with two operand bytes (R53: `k` = 2). -/
abbrev twoOperandOpcodes : List Nat :=
  [130, 160, 162, 167]

/-- The opcode bytes whose two operand bytes both name registers (R52: format RR). -/
abbrev twoRegisterOpcodes : List Nat :=
  [160, 162, 167]

/-- The byte at `pc`, as a number. -/
abbrev State.opcodeByte (s : State) : Nat :=
  (s.mem.read s.pc).toNat

/-- All these bytes exist and stand in memory at `pc`, at increasing addresses (R40). -/
abbrev State.HoldsBytes (s : State) (bytes : List Byte) : Prop :=
  ∀ j, (h : j < bytes.length) → s.pc + j < 256 ∧ s.mem.read (s.pc + j) = bytes[j]

/-- This opcode byte stands at `pc` and not all of its `k` operand bytes exist (R67). -/
abbrev State.CutOff (s : State) (opcode : Byte) (k : Nat) : Prop :=
  s.pc < 256 ∧ s.mem.read s.pc = opcode ∧ 256 ≤ s.pc + k

/-- The state after the fatal step (R95): the record, its diagnostic as the last event and `run` =
FAULTED, with everything else as before. -/
def State.afterFatal (s : State) (kind : FatalKind) (info : Nat) : State :=
  { s with
    fault := some ⟨kind, s.pc, info⟩
    out := s.out ++ [.diagnostic ⟨kind, s.pc, info⟩]
    run := .faulted }

/-! ### The invariant of a run -/

/-- `Print(v)` for some `v`. -/
def Event.isPrint : Event → Bool
  | .print _ => true
  | .diagnostic _ => false

/-- What R30 and R94 say of a record's `info`: an opcode byte outside the map, an address past the
memory at which a byte of the instruction would be, or a byte that names no register. -/
def FaultRecord.legal (r : FaultRecord) : Prop :=
  match r.kind with
  | .invalidInstruction => r.info < 256 ∧ r.info ∉ opcodeBytes
  | .memoryOutOfRange => 256 ≤ r.info ∧ r.pc ≤ r.info ∧ r.info ≤ r.pc + 2
  | .invalidRegister => 8 ≤ r.info ∧ r.info < 256

/-- The fault record and the event stream agree with `run`: while it is not FAULTED there is no record
and no diagnostic; when it is, the record is that of the instruction at `pc`, and its diagnostic is the
last event and the only one of its kind (R30, R32, R95, R106). -/
def State.runConsistent (s : State) : Prop :=
  match s.run with
  | .faulted =>
    ∃ r, s.fault = some r ∧ r.pc = s.pc ∧ r.legal ∧ s.out.getLast? = some (.diagnostic r) ∧
      s.out.dropLast.all Event.isPrint = true
  | _ => s.fault = none ∧ s.out.all Event.isPrint = true

/-- The invariant of a run: `pc` in 0 to 256 (R20, R72), memory in canonical form, and the record and the
events as `run` says. -/
structure State.Inv (s : State) : Prop where
  pcInRange : s.pc ≤ 256
  memoryCanonical : s.mem.wf
  consistent : s.runConsistent

end Sys2Proof.Machine

namespace Sys2Proof.Reference

open Sys2Proof.Machine

/-- General register `i`, for an `i` below 8 (R8). -/
def x (s : State) (i : Nat) : Nat :=
  (s.x[i]?.getD 0).toNat

/-- `x[i] <- v`, narrowed as R14 says. -/
def setX (s : State) (i v : Nat) : State :=
  { s with x := s.x.setIfInBounds i (BitVec.ofNat 8 (v % 256)) }

/-- The handlers of R75 to R91 with the advance of R69, for operand bytes that passed the checks. -/
def handle (s : State) (op a b : Nat) : State :=
  if op = 130 then { setX s a b with pc := s.pc + 3 }
  else if op = 71 then { s with out := s.out ++ [.print (BitVec.ofNat 8 (x s a))], pc := s.pc + 2 }
  else if op = 160 then { setX s a (x s a + x s b) with pc := s.pc + 3 }
  else if op = 162 then { setX s a (x s a * x s b) with pc := s.pc + 3 }
  else if op = 167 then
    { s with
      fl := if x s a = x s b then .equal else if x s a < x s b then .lessThan else .greaterThan
      pc := s.pc + 3 }
  else if op = 69 then
    { s with
      mem := s.mem.write s.sp.toNat (BitVec.ofNat 8 (x s a))
      sp := BitVec.ofNat 8 ((s.sp.toNat + 255) % 256)
      pc := s.pc + 2 }
  else if op = 70 then
    { setX s a (s.mem.read ((s.sp.toNat + 1) % 256)).toNat with
      sp := BitVec.ofNat 8 ((s.sp.toNat + 1) % 256)
      pc := s.pc + 2 }
  else if op = 84 then { s with pc := x s a }
  else if op = 85 then { s with pc := if s.fl = .equal then x s a else s.pc + 2 }
  else { s with pc := if s.fl ≠ .equal then x s a else s.pc + 2 }

/-- R70, the whole step as one function of the state, line by line, for `run` = RUNNING. -/
def step (s : State) : State :=
  if 256 ≤ s.pc then s.afterFatal .memoryOutOfRange s.pc
  else
    let op := (s.mem.read s.pc).toNat
    if op ∉ opcodeBytes then s.afterFatal .invalidInstruction op
    else if op = 1 then { s with run := .halted }
    else if 256 ≤ s.pc + 1 then s.afterFatal .memoryOutOfRange (s.pc + 1)
    else if op ∈ twoOperandOpcodes ∧ 256 ≤ s.pc + 2 then s.afterFatal .memoryOutOfRange (s.pc + 2)
    else
      let a := (s.mem.read (s.pc + 1)).toNat
      let b := (s.mem.read (s.pc + 2)).toNat
      if 8 ≤ a then s.afterFatal .invalidRegister a
      else if op ∈ twoRegisterOpcodes ∧ 8 ≤ b then s.afterFatal .invalidRegister b
      else handle s op a b

/-- PUSH of several register operands, one after another, stopping where one gives no next state. -/
def pushAll : List Byte → State → Result
  | [], s => .next s
  | a :: rest, s =>
    match exec (.push a) s with
    | .next t => pushAll rest t
    | .fault r => .fault r
    | .refused r => .refused r

end Sys2Proof.Reference
end

