-- ==== Sys2Proof/Certificates/Slice0/Obligations.lean ====
section
/-! DEFINITION. The statements for the provers. Each cites the rule of spec/ it formalises; where a
clause rests on a decision or a derivation the spec marks as its own, or on a log entry, its docstring
says so. -/

open Sys2Proof Sys2Proof.Machine

/-! ### Encoding -/

/-- A few words written out from R52 and R53 decode to what they stand for, one or more per family.
The opcode byte values are the spec's decision D3. -/
def Obligations.SampleWordsDecode : Prop :=
  decode [0b10000010, 0b00000111, 0b11111111] = .instr (.ldi 7 255) ∧
  decode [0b01000111, 0b00000101] = .instr (.prn 5) ∧
  decode [0b10100000, 0b00000000, 0b00000001] = .instr (.add 0 1) ∧
  decode [0b10100111, 0b00000011, 0b00000100] = .instr (.cmp 3 4) ∧
  decode [0b01000101, 0b00000110] = .instr (.push 6) ∧
  decode [0b01010110, 0b00000010] = .instr (.jne 2) ∧
  decode [0b00000001] = .instr .hlt ∧
  decode [0b00000000] = .invalidOpcode 0 ∧
  decode [0b10100010, 0b00000001] = .missingByte 2

/-- Decoding and encoding agree both ways, for every instruction with every operand byte: the encoding
of an instruction, whatever follows it, decodes to it; and bytes that decode to an instruction begin
with its encoding. No bit of an encoding is dropped, and no two encodings meet (R51, R52, R53, R58). -/
def Obligations.DecodeEncodeAgree : Prop :=
  (∀ (i : Instr) (rest : List Byte), decode (encode i ++ rest) = .instr i) ∧
  (∀ (bytes : List Byte) (i : Instr), decode bytes = .instr i → ∃ rest, bytes = encode i ++ rest)

/-- R57: an opcode byte outside the map raises `InvalidInstruction` with that byte, whatever follows it
and whether or not anything does (no operand byte is read); 245 of the 256 byte values do so, and 0x00,
which unloaded memory holds, is one of them. -/
def Obligations.UnknownOpcodeIsFatal : Prop :=
  (∀ s : State, s.run = .running → s.pc < 256 → s.opcodeByte ∉ opcodeBytes →
    step s = .next (s.afterFatal .invalidInstruction s.opcodeByte)) ∧
  opcodeBytes.Nodup ∧ opcodeBytes.length = 256 - 245 ∧ (∀ op ∈ opcodeBytes, op < 256) ∧
  0 ∉ opcodeBytes

/-! ### The step -/

/-- A step runs the decoded instruction: while `run` = RUNNING, if the bytes of `i` stand at `pc`, the
step is exactly what `exec` answers for `i` in that state; this model adds nothing around it (R69). It
holds for every `i`, also one with a register byte of 8 or more, whose check is `exec`'s (R68). -/
def Obligations.StepRunsDecodedInstruction : Prop :=
  ∀ (s : State) (i : Instr), s.run = .running → s.HoldsBytes (encode i) → step s = exec i s

/-- A step is taken exactly when `run` = RUNNING. R63 gives that none is taken otherwise, so that the
state never changes again; that asking for one in HALTED or FAULTED answers no next state is log entry 2
(DEDUCED). That every RUNNING state has a next state rests on R70 and on log entry 1 (DEDUCED): a fatal
condition is a next state too. -/
def Obligations.StepTakenOnlyWhileRunning : Prop :=
  ∀ s : State, (∃ t, step s = .next t) ↔ s.run = .running

/-- The step is the spec's pseudocode of the whole step, R70, with the handlers of R75 to R91 and the
fatal step of R95. Rests on decisions D3 to D6 and D11 to D14 through R70. -/
def Obligations.StepEqualsSpecPseudocode : Prop :=
  ∀ s : State, s.run = .running → step s = .next (Reference.step s)

/-- The order of the fatal conditions (R97, the spec's decision D13): the first that applies is raised,
whatever else applies, and HLT raises nothing. -/
def Obligations.FirstFatalConditionIsRaised : Prop :=
  ∀ s : State, s.run = .running →
    (256 ≤ s.pc → step s = .next (s.afterFatal .memoryOutOfRange s.pc)) ∧
    (s.pc < 256 → s.opcodeByte ∉ opcodeBytes →
      step s = .next (s.afterFatal .invalidInstruction s.opcodeByte)) ∧
    (s.pc = 255 → s.opcodeByte ∈ operandOpcodes →
      step s = .next (s.afterFatal .memoryOutOfRange (s.pc + 1))) ∧
    (s.pc = 254 → s.opcodeByte ∈ twoOperandOpcodes →
      step s = .next (s.afterFatal .memoryOutOfRange (s.pc + 2))) ∧
    (s.pc < 254 ∨ (s.pc = 254 ∧ s.opcodeByte ∉ twoOperandOpcodes) → s.opcodeByte ∈ operandOpcodes →
      8 ≤ (s.mem.read (s.pc + 1)).toNat →
      step s = .next (s.afterFatal .invalidRegister (s.mem.read (s.pc + 1)).toNat)) ∧
    (s.pc < 254 → s.opcodeByte ∈ twoRegisterOpcodes → (s.mem.read (s.pc + 1)).toNat < 8 →
      8 ≤ (s.mem.read (s.pc + 2)).toNat →
      step s = .next (s.afterFatal .invalidRegister (s.mem.read (s.pc + 2)).toNat)) ∧
    (s.pc < 256 → s.opcodeByte = 1 → ∃ t, step s = .next t ∧ t.run = .halted ∧ t.fault = s.fault)

/-- Fatal conditions are precise (R95, R96, the spec's decisions D14 and D16): a step that leaves
FAULTED has written the record with the `pc` of the failing instruction, its diagnostic as the last
event and `run`, and nothing else. -/
def Obligations.FatalStepIsPrecise : Prop :=
  ∀ s t : State, step s = .next t → t.run = .faulted →
    ∃ kind info, t.fault = some ⟨kind, s.pc, info⟩ ∧
      t.out = s.out ++ [.diagnostic ⟨kind, s.pc, info⟩] ∧
      t.x = s.x ∧ t.sp = s.sp ∧ t.fl = s.fl ∧ t.pc = s.pc ∧ t.mem = s.mem

/-- R71, the fetch-advance law: an instruction with operand count `k` that is no taken jump leaves
`pc` at exactly `pc + 1 + k`, and HLT leaves `pc` as it is. -/
def Obligations.FetchAdvanceLaw : Prop :=
  ∀ (s : State) (a b : Byte), a.toNat < 8 →
    (∃ t, exec (.ldi a b) s = .next t ∧ t.pc = s.pc + 1 + 2) ∧
    (∃ t, exec (.prn a) s = .next t ∧ t.pc = s.pc + 1 + 1) ∧
    (b.toNat < 8 → ∀ i ∈ [Instr.add a b, Instr.mul a b, Instr.cmp a b],
      ∃ t, exec i s = .next t ∧ t.pc = s.pc + 1 + 2) ∧
    (∃ t, exec (.push a) s = .next t ∧ t.pc = s.pc + 1 + 1) ∧
    (∃ t, exec (.pop a) s = .next t ∧ t.pc = s.pc + 1 + 1) ∧
    (s.fl ≠ .equal → ∃ t, exec (.jeq a) s = .next t ∧ t.pc = s.pc + 1 + 1) ∧
    (s.fl = .equal → ∃ t, exec (.jne a) s = .next t ∧ t.pc = s.pc + 1 + 1) ∧
    (∃ t, exec .hlt s = .next t ∧ t.pc = s.pc)

/-- After every step that ends RUNNING, `pc` is in 0 to 256; at 256 the next step raises
`MemoryOutOfRange` at its opcode fetch (R72, which the spec marks as derived; R20, decision D6). -/
def Obligations.PcStaysInRange : Prop :=
  (∀ s t : State, step s = .next t → t.run = .running → t.pc ≤ 256) ∧
  (∀ s : State, s.run = .running → s.pc = 256 → step s = .next (s.afterFatal .memoryOutOfRange 256))

/-- A run ends only by HLT or by a fatal condition (R74): a step that leaves RUNNING began at a HLT
byte and leaves HALTED, or leaves FAULTED with a fault record. -/
def Obligations.RunEndsOnlyByHltOrFatal : Prop :=
  ∀ s t : State, step s = .next t → t.run ≠ .running →
    (s.pc < 256 ∧ s.mem.read s.pc = 0x01 ∧ t.run = .halted ∧ t.fault = s.fault) ∨
    (t.run = .faulted ∧ ∃ kind info, t.fault = some ⟨kind, s.pc, info⟩)

/-- A program that reaches neither HLT nor a fatal condition runs for ever (R74): a JMP whose register
holds its own address (R89) is a step back to the very same state, for any number of steps. -/
def Obligations.JumpToItselfRunsForever : Prop :=
  ∀ (s : State) (a : Byte) (ha : a.toNat < 8), s.run = .running → s.HoldsBytes [0x54, a] →
    s.x[a.toNat].toNat = s.pc → ∀ n, Sys2Proof.core.run n s = .next s

/-! ### The invariant, reset and the program load -/

/-- Every step keeps the invariant of a run, from every state that meets it: `pc` in 0 to 256, memory in
canonical form (the model's representation, log entry 4, DESIGN CHOICE), and the fault record and the events as `run`
says, with a legal record that is written once (R20, R30, R32, R72, R95). -/
def Obligations.StepKeepsInvariant : Prop :=
  ∀ s t : State, s.Inv → step s = .next t → t.Inv

/-- The state after reset meets the invariant. -/
def Obligations.ResetMeetsInvariant : Prop :=
  State.reset.Inv

/-- Every state that a program load gives meets the invariant (R108). -/
def Obligations.LoadedProgramMeetsInvariant : Prop :=
  ∀ (words : List Nat) (s : State), loadProgram words = some s → s.Inv

/-- R13, R18, R21: after reset every general register, the stack pointer and the program counter hold
0. -/
def Obligations.ResetRegistersAreZero : Prop :=
  (∀ i : Fin 8, State.reset.x[i] = 0) ∧ State.reset.sp = 0 ∧ State.reset.sp = State.reset.x[7] ∧
    State.reset.pc = 0

/-- The rest of the reset state (R107): `fl` = NONE (the spec's decision D7), RUNNING, no fault record,
every cell 0, no event. -/
def Obligations.ResetFlagEngineAndMemory : Prop :=
  State.reset.fl = .none ∧ State.reset.run = .running ∧ State.reset.fault = none ∧
    (∀ addr, State.reset.mem.read addr = 0) ∧ State.reset.out = []

/-- The program load (R108, R109, the spec's decision D18): a program is refused exactly if it has more
than 256 words or a word above 255; otherwise cell `i` holds word `i`, the cells past the program hold
0, and everything but memory is as after reset. -/
def Obligations.LoadPlacesTheProgram : Prop :=
  ∀ words : List Nat,
    (loadProgram words = none ↔ 256 < words.length ∨ ∃ w ∈ words, 255 < w) ∧
    (∀ s, loadProgram words = some s →
      (∀ i, (h : i < words.length) → (s.mem.read i).toNat = words[i]) ∧
      (∀ addr, words.length ≤ addr → s.mem.read addr = 0) ∧
      s = { State.reset with mem := s.mem })

/-- The first step after a load executes the instruction whose bytes the program begins with; after the
load of an empty program it raises `InvalidInstruction` at `pc` 0 (R110, which the spec marks as derived
for the empty program). -/
def Obligations.FirstStepRunsTheProgramsStart : Prop :=
  (∀ (i : Instr) (rest : List Byte) (s : State),
    loadProgram ((encode i ++ rest).map BitVec.toNat) = some s → step s = exec i s) ∧
  (∃ s, loadProgram [] = some s ∧ step s = .next (s.afterFatal .invalidInstruction 0))

/-! ### Each instruction's rule -/

/-- R75, LDI: encoding, effect, and its two fatal conditions. -/
def Obligations.LdiFollowsItsRule : Prop :=
  ∀ (s : State) (a b : Byte),
    decode [0x82, a, b] = .instr (.ldi a b) ∧
    (∀ _ : a.toNat < 8,
      exec (.ldi a b) s = .next { s with x := s.x.set a.toNat b, pc := s.pc + 3 }) ∧
    (8 ≤ a.toNat → exec (.ldi a b) s = .next (s.afterFatal .invalidRegister a.toNat)) ∧
    (s.run = .running → s.HoldsBytes [0x82, a, b] → step s = exec (.ldi a b) s) ∧
    (s.run = .running → s.CutOff 0x82 2 → step s = .next (s.afterFatal .memoryOutOfRange 256))

/-- R76, PRN: encoding, effect, and its two fatal conditions. -/
def Obligations.PrnFollowsItsRule : Prop :=
  ∀ (s : State) (a : Byte),
    decode [0x47, a] = .instr (.prn a) ∧
    (∀ _ : a.toNat < 8,
      exec (.prn a) s = .next { s with out := s.out ++ [.print s.x[a.toNat]], pc := s.pc + 2 }) ∧
    (8 ≤ a.toNat → exec (.prn a) s = .next (s.afterFatal .invalidRegister a.toNat)) ∧
    (s.run = .running → s.HoldsBytes [0x47, a] → step s = exec (.prn a) s) ∧
    (s.run = .running → s.CutOff 0x47 1 → step s = .next (s.afterFatal .memoryOutOfRange 256))

/-- R79, ADD: encoding, effect (the sum modulo 256, `fl` unchanged), and its fatal conditions, `a`
before `b`. -/
def Obligations.AddFollowsItsRule : Prop :=
  ∀ (s : State) (a b : Byte),
    decode [0xA0, a, b] = .instr (.add a b) ∧
    (∀ (_ : a.toNat < 8) (_ : b.toNat < 8),
      exec (.add a b) s = .next { s with
        x := s.x.set a.toNat (BitVec.ofNat 8 ((s.x[a.toNat].toNat + s.x[b.toNat].toNat) % 256))
        pc := s.pc + 3 }) ∧
    (8 ≤ a.toNat → exec (.add a b) s = .next (s.afterFatal .invalidRegister a.toNat)) ∧
    (a.toNat < 8 → 8 ≤ b.toNat → exec (.add a b) s = .next (s.afterFatal .invalidRegister b.toNat)) ∧
    (s.run = .running → s.HoldsBytes [0xA0, a, b] → step s = exec (.add a b) s) ∧
    (s.run = .running → s.CutOff 0xA0 2 → step s = .next (s.afterFatal .memoryOutOfRange 256))

/-- R80, MUL: encoding, effect (the low 8 bits of the product, `fl` unchanged), and its fatal
conditions, `a` before `b`. -/
def Obligations.MulFollowsItsRule : Prop :=
  ∀ (s : State) (a b : Byte),
    decode [0xA2, a, b] = .instr (.mul a b) ∧
    (∀ (_ : a.toNat < 8) (_ : b.toNat < 8),
      exec (.mul a b) s = .next { s with
        x := s.x.set a.toNat (BitVec.ofNat 8 ((s.x[a.toNat].toNat * s.x[b.toNat].toNat) % 256))
        pc := s.pc + 3 }) ∧
    (8 ≤ a.toNat → exec (.mul a b) s = .next (s.afterFatal .invalidRegister a.toNat)) ∧
    (a.toNat < 8 → 8 ≤ b.toNat → exec (.mul a b) s = .next (s.afterFatal .invalidRegister b.toNat)) ∧
    (s.run = .running → s.HoldsBytes [0xA2, a, b] → step s = exec (.mul a b) s) ∧
    (s.run = .running → s.CutOff 0xA2 2 → step s = .next (s.afterFatal .memoryOutOfRange 256))

/-- R81, CMP: encoding, effect (`fl` is replaced whole by the outcome of the unsigned comparison, and no
register is written), and its fatal conditions, `a` before `b`. -/
def Obligations.CmpFollowsItsRule : Prop :=
  ∀ (s : State) (a b : Byte),
    decode [0xA7, a, b] = .instr (.cmp a b) ∧
    (∀ (_ : a.toNat < 8) (_ : b.toNat < 8),
      exec (.cmp a b) s = .next { s with
        fl := if s.x[a.toNat] = s.x[b.toNat] then .equal
          else if s.x[a.toNat] < s.x[b.toNat] then .lessThan else .greaterThan
        pc := s.pc + 3 }) ∧
    (8 ≤ a.toNat → exec (.cmp a b) s = .next (s.afterFatal .invalidRegister a.toNat)) ∧
    (a.toNat < 8 → 8 ≤ b.toNat → exec (.cmp a b) s = .next (s.afterFatal .invalidRegister b.toNat)) ∧
    (s.run = .running → s.HoldsBytes [0xA7, a, b] → step s = exec (.cmp a b) s) ∧
    (s.run = .running → s.CutOff 0xA7 2 → step s = .next (s.afterFatal .memoryOutOfRange 256))

/-- R85, PUSH: encoding, effect (the cell at `sp` takes the register's value and no other cell changes;
then `sp` is decremented modulo 256), and its two fatal conditions. The write address never faults. -/
def Obligations.PushFollowsItsRule : Prop :=
  ∀ (s : State) (a : Byte),
    decode [0x45, a] = .instr (.push a) ∧
    (∀ _ : a.toNat < 8, ∃ t, exec (.push a) s = .next t ∧
      t.mem.read s.sp.toNat = s.x[a.toNat] ∧
      (∀ addr, addr ≠ s.sp.toNat → t.mem.read addr = s.mem.read addr) ∧
      t.sp.toNat = (s.sp.toNat + 255) % 256 ∧ t.pc = s.pc + 2 ∧
      t.x = s.x ∧ t.fl = s.fl ∧ t.run = s.run ∧ t.fault = s.fault ∧ t.out = s.out) ∧
    (8 ≤ a.toNat → exec (.push a) s = .next (s.afterFatal .invalidRegister a.toNat)) ∧
    (s.run = .running → s.HoldsBytes [0x45, a] → step s = exec (.push a) s) ∧
    (s.run = .running → s.CutOff 0x45 1 → step s = .next (s.afterFatal .memoryOutOfRange 256))

/-- R86, POP: encoding, effect (the register takes the cell at `(sp + 1) mod 256`, which `sp` then
holds; memory is unchanged), and its two fatal conditions. The read address never faults. -/
def Obligations.PopFollowsItsRule : Prop :=
  ∀ (s : State) (a : Byte),
    decode [0x46, a] = .instr (.pop a) ∧
    (∀ _ : a.toNat < 8,
      exec (.pop a) s = .next { s with
        x := s.x.set a.toNat (s.mem.read ((s.sp.toNat + 1) % 256))
        sp := BitVec.ofNat 8 ((s.sp.toNat + 1) % 256)
        pc := s.pc + 2 }) ∧
    (8 ≤ a.toNat → exec (.pop a) s = .next (s.afterFatal .invalidRegister a.toNat)) ∧
    (s.run = .running → s.HoldsBytes [0x46, a] → step s = exec (.pop a) s) ∧
    (s.run = .running → s.CutOff 0x46 1 → step s = .next (s.afterFatal .memoryOutOfRange 256))

/-- R89, JMP: encoding, effect, and its two fatal conditions. -/
def Obligations.JmpFollowsItsRule : Prop :=
  ∀ (s : State) (a : Byte),
    decode [0x54, a] = .instr (.jmp a) ∧
    (∀ _ : a.toNat < 8, exec (.jmp a) s = .next { s with pc := s.x[a.toNat].toNat }) ∧
    (8 ≤ a.toNat → exec (.jmp a) s = .next (s.afterFatal .invalidRegister a.toNat)) ∧
    (s.run = .running → s.HoldsBytes [0x54, a] → step s = exec (.jmp a) s) ∧
    (s.run = .running → s.CutOff 0x54 1 → step s = .next (s.afterFatal .memoryOutOfRange 256))

/-- R90, JEQ: encoding, effect (taken iff `fl` = EQUAL), and its two fatal conditions, the register's
whether or not the jump would be taken. -/
def Obligations.JeqFollowsItsRule : Prop :=
  ∀ (s : State) (a : Byte),
    decode [0x55, a] = .instr (.jeq a) ∧
    (∀ _ : a.toNat < 8, s.fl = .equal →
      exec (.jeq a) s = .next { s with pc := s.x[a.toNat].toNat }) ∧
    (a.toNat < 8 → s.fl ≠ .equal → exec (.jeq a) s = .next { s with pc := s.pc + 2 }) ∧
    (8 ≤ a.toNat → exec (.jeq a) s = .next (s.afterFatal .invalidRegister a.toNat)) ∧
    (s.run = .running → s.HoldsBytes [0x55, a] → step s = exec (.jeq a) s) ∧
    (s.run = .running → s.CutOff 0x55 1 → step s = .next (s.afterFatal .memoryOutOfRange 256))

/-- R91, JNE: encoding, effect (taken iff `fl` ≠ EQUAL, NONE included), and its two fatal conditions, the
register's whether or not the jump would be taken. -/
def Obligations.JneFollowsItsRule : Prop :=
  ∀ (s : State) (a : Byte),
    decode [0x56, a] = .instr (.jne a) ∧
    (∀ _ : a.toNat < 8, s.fl ≠ .equal →
      exec (.jne a) s = .next { s with pc := s.x[a.toNat].toNat }) ∧
    (a.toNat < 8 → s.fl = .equal → exec (.jne a) s = .next { s with pc := s.pc + 2 }) ∧
    (8 ≤ a.toNat → exec (.jne a) s = .next (s.afterFatal .invalidRegister a.toNat)) ∧
    (s.run = .running → s.HoldsBytes [0x56, a] → step s = exec (.jne a) s) ∧
    (s.run = .running → s.CutOff 0x56 1 → step s = .next (s.afterFatal .memoryOutOfRange 256))

/-- R66, HLT: the step at a HLT byte ends with `run` = HALTED and nothing else changed, `pc` included;
no operand is read, so it does so at every address, 255 included. -/
def Obligations.HltEndsTheStep : Prop :=
  ∀ s : State,
    exec .hlt s = .next { s with run := .halted } ∧
    (s.run = .running → s.pc < 256 → s.mem.read s.pc = 0x01 →
      step s = .next { s with run := .halted })

/-- Every well-formed instruction is legal at all times (R100): in every state it completes, raises
nothing, and leaves `run` as it was, except that HLT leaves HALTED. -/
def Obligations.WellFormedInstructionsComplete : Prop :=
  ∀ (i : Instr) (s : State), i.wellFormed = true →
    ∃ t, exec i s = .next t ∧ t.fault = s.fault ∧
      t.run = (if i = .hlt then RunState.halted else s.run)

/-- An instruction with a register operand byte of 8 or more raises `InvalidRegister` with the first such
byte, `a` before `b` (R55, R68, R97: the spec's decisions D4 and D13). -/
def Obligations.IllFormedInstructionRaisesInvalidRegister : Prop :=
  ∀ (i : Instr) (s : State) (r : Byte),
    i.registerOperands.find? (fun r => decide (8 ≤ r.toNat)) = some r →
    exec i s = .next (s.afterFatal .invalidRegister r.toNat)

/-! ### Frames -/

/-- The frame of LDI, ADD and MUL: nothing but the destination register `a` and `pc` changes; every
other register, `sp`, `fl`, `run`, the fault record, the events and every cell read as before (R25, R75,
R79, R80). Ill-formed operands: see `IllFormedInstructionRaisesInvalidRegister`. -/
def Obligations.RegisterResultFrame : Prop :=
  ∀ (s t : State) (a b : Byte) (i : Instr), i ∈ [Instr.ldi a b, Instr.add a b, Instr.mul a b] →
    i.wellFormed = true → exec i s = .next t →
      (∀ j : Fin 8, j.val ≠ a.toNat → t.x[j] = s.x[j]) ∧
      t.sp = s.sp ∧ t.fl = s.fl ∧ t.run = s.run ∧ t.fault = s.fault ∧ t.out = s.out ∧
      ∀ addr, t.mem.read addr = s.mem.read addr

/-- The frame of PRN, CMP, JMP, JEQ, JNE and HLT: no register, no cell, neither `sp` nor the fault record
changes; `fl` changes by CMP alone, the events by PRN alone, `run` by HLT alone (R76, R81, R89 to R92). -/
def Obligations.NoRegisterResultFrame : Prop :=
  ∀ (s t : State) (a b : Byte) (i : Instr),
    i ∈ [Instr.prn a, Instr.cmp a b, Instr.jmp a, Instr.jeq a, Instr.jne a, Instr.hlt] →
    i.wellFormed = true → exec i s = .next t →
      t.x = s.x ∧ t.sp = s.sp ∧ t.fault = s.fault ∧
      (i ≠ .cmp a b → t.fl = s.fl) ∧ (i ≠ .prn a → t.out = s.out) ∧ (i ≠ .hlt → t.run = s.run) ∧
      ∀ addr, t.mem.read addr = s.mem.read addr

/-- The frame of PUSH: the stored byte is the one at the address the meaning stores to, and every other
cell reads as before; `sp` and `pc` apart, nothing else changes (R85). -/
def Obligations.PushFrame : Prop :=
  ∀ (s t : State) (a : Byte), (Instr.push a).wellFormed = true → exec (.push a) s = .next t →
    (∀ addr, addr = s.pushAddress → ∀ other, other ≠ addr → t.mem.read other = s.mem.read other) ∧
    t.x = s.x ∧ t.fl = s.fl ∧ t.run = s.run ∧ t.fault = s.fault ∧ t.out = s.out

/-- The frame of POP: every cell reads as before, every register but the destination `a` is unchanged;
`sp` and `pc` apart, nothing else changes (R86). -/
def Obligations.PopFrame : Prop :=
  ∀ (s t : State) (a : Byte), (Instr.pop a).wellFormed = true → exec (.pop a) s = .next t →
    (∀ j : Fin 8, j.val ≠ a.toNat → t.x[j] = s.x[j]) ∧
    t.fl = s.fl ∧ t.run = s.run ∧ t.fault = s.fault ∧ t.out = s.out ∧
    ∀ addr, t.mem.read addr = s.mem.read addr

/-! ### Whole-machine rules -/

/-- R25: a step changes `fl` only at a CMP byte; and a step at any other byte than JEQ's and JNE's does
not read it: from two states that differ in `fl` alone it leaves states that differ in `fl` alone, and
none there if CMP completed. -/
def Obligations.FlagWrittenByCmpReadByJumps : Prop :=
  (∀ s t : State, step s = .next t → t.fl ≠ s.fl → s.mem.read s.pc = 0xA7) ∧
  (∀ (s t u : State) (f : Flag), s.mem.read s.pc ≠ 0x55 → s.mem.read s.pc ≠ 0x56 →
    step s = .next t → step { s with fl := f } = .next u →
      u = { t with fl := u.fl } ∧
      (s.mem.read s.pc = 0xA7 → t.run = .running → u.fl = t.fl))

/-- `sp` starts equal to register 7 and is not aliased to it (R16): a step changes `sp` only at a PUSH or
a POP byte (R17, which the spec marks as derived), changes register 7 only at an instruction that names it
as its destination (R12), and leaves the same `sp` whatever register 7 holds. The one step that changes
both, POP R7, loads register 7 with the popped cell, and every POP leaves `sp` one above its old value,
modulo 256 (R86, R19: the spec's decision D8), whatever the popped cell holds. -/
def Obligations.StackPointerIsNotRegister7 : Prop :=
  State.reset.sp = State.reset.x[7] ∧
  (∀ s t : State, step s = .next t → t.sp ≠ s.sp →
    s.mem.read s.pc = 0x45 ∨ s.mem.read s.pc = 0x46) ∧
  (∀ s t : State, step s = .next t → t.x[7] ≠ s.x[7] →
    s.opcodeByte ∈ [130, 160, 162, 70] ∧ s.mem.read (s.pc + 1) = 7) ∧
  (∀ (s t u : State) (v : Byte), step s = .next t →
    step { s with x := s.x.set 7 v } = .next u → u.sp = t.sp) ∧
  (∀ (s : State) (a : Byte), a.toNat < 8 → s.run = .running → s.HoldsBytes [0x46, a] →
    ∃ t, step s = .next t ∧ t.sp.toNat = (s.sp.toNat + 1) % 256 ∧
      (a = 7 → t.x[7] = s.mem.read ((s.sp.toNat + 1) % 256)))

/-- A step changes a general register only at an LDI, ADD, MUL or POP byte whose first operand byte
names it (R12, for the writers). -/
def Obligations.RegistersWrittenOnlyAsDestination : Prop :=
  ∀ (s t : State) (j : Fin 8), step s = .next t → t.x[j] ≠ s.x[j] →
    s.opcodeByte ∈ [130, 160, 162, 70] ∧ (s.mem.read (s.pc + 1)).toNat = j.val

/-- A step changes a cell only at a PUSH byte, and only the cell `sp` points at (R38, for the writes of a
run). -/
def Obligations.MemoryWrittenOnlyByPush : Prop :=
  ∀ (s t : State) (addr : Nat), step s = .next t → t.mem.read addr ≠ s.mem.read addr →
    s.mem.read s.pc = 0x45 ∧ addr = s.sp.toNat

/-- R32: the event stream is empty after reset; a step appends `Print` of the register at a PRN that
completes, the diagnostic of its record if it is fatal, and nothing otherwise. -/
def Obligations.EventsComeFromPrnAndFatalSteps : Prop :=
  State.reset.out = [] ∧
  ∀ s t : State, step s = .next t →
    (∀ r, t.run = .faulted → t.fault = some r → t.out = s.out ++ [.diagnostic r]) ∧
    (t.run = .faulted → t.fault.isSome = true) ∧
    (∀ i : Fin 8, t.run ≠ .faulted → s.HoldsBytes [0x47, BitVec.ofNat 8 i.val] →
      t.out = s.out ++ [.print s.x[i]]) ∧
    (t.run ≠ .faulted → s.mem.read s.pc ≠ 0x47 → t.out = s.out)

/-- R83: after CMP, for all register values, EQUAL holds iff they are equal, LESS_THAN iff the first is
less, GREATER_THAN iff it is greater, and exactly one of the three does, so NONE never. -/
def Obligations.ComparisonConsistency : Prop :=
  ∀ (s : State) (a b : Byte) (_ : a.toNat < 8) (_ : b.toNat < 8),
    ∃ t, exec (.cmp a b) s = .next t ∧
      (t.fl = .equal ↔ s.x[a.toNat].toNat = s.x[b.toNat].toNat) ∧
      (t.fl = .lessThan ↔ s.x[a.toNat].toNat < s.x[b.toNat].toNat) ∧
      (t.fl = .greaterThan ↔ s.x[b.toNat].toNat < s.x[a.toNat].toNat) ∧
      t.fl ≠ .none

/-- For every `fl`, exactly one of JEQ and JNE is taken (R91, R93): one goes to the register's address
and the other on to the next instruction. -/
def Obligations.ExactlyOneConditionalJumpIsTaken : Prop :=
  ∀ (s : State) (a : Byte) (_ : a.toNat < 8),
    ∃ t u, exec (.jeq a) s = .next t ∧ exec (.jne a) s = .next u ∧
      ((t.pc = s.x[a.toNat].toNat ∧ u.pc = s.pc + 2 ∧ s.fl = .equal) ∨
       (t.pc = s.pc + 2 ∧ u.pc = s.x[a.toNat].toNat ∧ s.fl ≠ .equal))

/-- R87, the push/pop inverse law, from every `sp` (the spec derives it for those other than 0): PUSH
then POP leaves the pushed value in the second register, `sp` as before, and the other registers
unchanged. -/
def Obligations.PushThenPopRestores : Prop :=
  ∀ (s : State) (a b : Byte) (_ : a.toNat < 8) (_ : b.toNat < 8),
    ∃ t u, exec (.push a) s = .next t ∧ exec (.pop b) t = .next u ∧
      u.x[b.toNat] = s.x[a.toNat] ∧ u.sp = s.sp ∧
      ∀ j : Fin 8, j.val ≠ b.toNat → u.x[j] = s.x[j]

/-- R88, which the spec marks as derived: up to 256 PUSHes from `sp` = 0 put the `j`th value, counted
from 0, in cell `(256 - j) mod 256`, change no other cell, and leave `sp` that many below 256, modulo
256. -/
def Obligations.StackPlacementFromReset : Prop :=
  ∀ (s : State) (regs : List Byte), s.sp = 0 → (∀ r ∈ regs, r.toNat < 8) → regs.length ≤ 256 →
    ∃ t, Reference.pushAll regs s = .next t ∧
      t.sp.toNat = (256 - regs.length) % 256 ∧
      (∀ j, (h : j < regs.length) → s.x[(regs[j]).toNat]? = some (t.mem.read ((256 - j) % 256))) ∧
      (∀ addr, (∀ j < regs.length, addr ≠ (256 - j) % 256) → t.mem.read addr = s.mem.read addr)

/-- R48 (the spec's decision D10): a PUSH that writes the cell of the next instruction's opcode is seen by
the very next fetch: that step halts if the pushed byte is HLT's and raises `InvalidInstruction` with it
if it is outside the map. -/
def Obligations.PushedByteIsFetchedNext : Prop :=
  ∀ (s : State) (a : Byte) (_ : a.toNat < 8), s.run = .running → s.HoldsBytes [0x45, a] →
    s.sp.toNat = s.pc + 2 →
    ∃ t, step s = .next t ∧ t.pc = s.pc + 2 ∧
      (s.x[a.toNat] = 0x01 → step t = .next { t with run := .halted }) ∧
      (s.x[a.toNat].toNat ∉ opcodeBytes →
        step t = .next (t.afterFatal .invalidInstruction s.x[a.toNat].toNat))

/-- Memories in canonical form that read alike at every address are equal data (the model's own
representation: log entry 4, DESIGN CHOICE). -/
def Obligations.CanonicalMemoriesThatReadAlikeAreEqual : Prop :=
  ∀ m n : Memory, m.wf → n.wf → (∀ addr, m.read addr = n.read addr) → m = n

/-! ### What the host sees -/

/-- The exit status (R33): 0 exactly when HALTED, not 0 when FAULTED, none while RUNNING. The value 1 of
`EXIT_FAULT` is the spec's decision D15 and is left out. -/
def Obligations.ExitStatusFollowsTheEngineState : Prop :=
  ∀ s : State,
    (s.run = .running → s.exitStatus = none) ∧
    (s.run = .halted → s.exitStatus = some 0) ∧
    (s.run = .faulted → ∃ n, s.exitStatus = some n ∧ n ≠ 0)

/-- At the end of a run (R106), for every state that meets the invariant: after HLT the exit status is 0
and no event is a diagnostic; after a fatal condition it is not 0, and the last event is a diagnostic
and the only one. -/
def Obligations.HostSeesHowTheRunEnded : Prop :=
  ∀ s : State, s.Inv →
    (s.run = .halted → s.exitStatus = some 0 ∧ ∀ r, Event.diagnostic r ∉ s.out) ∧
    (s.run = .faulted → s.exitStatus ≠ none ∧ s.exitStatus ≠ some 0 ∧
      ∃ r before, s.fault = some r ∧ s.out = before ++ [.diagnostic r] ∧
        ∀ q, Event.diagnostic q ∉ before)

/-- The line of a printed value (R77, the spec's decision D17): at least one decimal digit, the digits
give the value, no leading zero except in `0` itself, then one newline; so 0 prints as `0`. -/
def Obligations.PrintLineIsPlainDecimal : Prop :=
  ∀ v : Byte, ∃ digits : List Char,
    printLine v = digits ++ ['\n'] ∧
    digits ≠ [] ∧
    (∀ c ∈ digits, '0' ≤ c ∧ c ≤ '9') ∧
    digits.foldl (fun n c => 10 * n + (c.toNat - '0'.toNat)) 0 = v.toNat ∧
    (digits.head? = some '0' → digits = ['0'])
end

