-- ==== Sys2Proof/Laws/Decode.lean ====
section
/-! SUPPORT. The decoder's spec lemmas: what the opcode map holds, and when the decoder answers an
instruction. -/

namespace Sys2Proof

/-- The map read as cases: each of the eleven bytes has its format, every other byte has none. -/
theorem lookupOpcode_cases (op : Byte) :
    (op = 0x82 ∧ lookupOpcode op = some (.ri .ldi)) ∨ (op = 0x47 ∧ lookupOpcode op = some (.r .prn)) ∨
    (op = 0xA0 ∧ lookupOpcode op = some (.rr .add)) ∨ (op = 0xA2 ∧ lookupOpcode op = some (.rr .mul)) ∨
    (op = 0xA7 ∧ lookupOpcode op = some (.rr .cmp)) ∨ (op = 0x45 ∧ lookupOpcode op = some (.r .push)) ∨
    (op = 0x46 ∧ lookupOpcode op = some (.r .pop)) ∨ (op = 0x54 ∧ lookupOpcode op = some (.r .jmp)) ∨
    (op = 0x55 ∧ lookupOpcode op = some (.r .jeq)) ∨ (op = 0x56 ∧ lookupOpcode op = some (.r .jne)) ∨
    (op = 0x01 ∧ lookupOpcode op = some (.z .hlt)) ∨
    ((op ≠ 0x82 ∧ op ≠ 0x47 ∧ op ≠ 0xA0 ∧ op ≠ 0xA2 ∧ op ≠ 0xA7 ∧ op ≠ 0x45 ∧ op ≠ 0x46 ∧ op ≠ 0x54 ∧
      op ≠ 0x55 ∧ op ≠ 0x56 ∧ op ≠ 0x01) ∧ lookupOpcode op = none) := by
  by_cases h : op ∈ opcodeMap.map OpcodeRow.code
  · simp only [opcodeMap, List.map_cons, List.map_nil, List.mem_cons, List.not_mem_nil, or_false] at h
    rcases h with rfl | rfl | rfl | rfl | rfl | rfl | rfl | rfl | rfl | rfl | rfl <;>
      repeat first | exact Or.inl ⟨rfl, rfl⟩ | apply Or.inr
  · have hnone : opcodeMap.find? (fun row => row.code == op) = none :=
      List.find?_eq_none.2 fun row hrow hop => h (List.mem_map.2 ⟨row, hrow, by simpa using hop⟩)
    simp only [opcodeMap, List.map_cons, List.map_nil, List.mem_cons, List.not_mem_nil, or_false,
      not_or] at h
    iterate 11 apply Or.inr
    exact ⟨h, by rw [lookupOpcode, hnone]; rfl⟩

theorem withByte_of_some {read : Nat → Option Byte} {offset : Nat} {v : Byte}
    (h : read offset = some v) (k : Byte → Decoded) : withByte read offset k = k v := by
  simp only [withByte, h]

theorem withByte_of_none {read : Nat → Option Byte} {offset : Nat} (h : read offset = none)
    (k : Byte → Decoded) : withByte read offset k = .missingByte offset := by
  simp only [withByte, h]

/-! ### The decoder, format by format -/

section
variable {read : Nat → Option Byte} {op : Byte} (h0 : read 0 = some op)
include h0

theorem decodeWith_of_none (hl : lookupOpcode op = none) : decodeWith read = .invalidOpcode op := by
  simp only [decodeWith, withByte_of_some h0, hl]

theorem decodeWith_of_z {i : Instr} (hl : lookupOpcode op = some (.z i)) :
    decodeWith read = .instr i := by
  simp only [decodeWith, withByte_of_some h0, hl]

theorem decodeWith_of_r {make : Byte → Instr} (hl : lookupOpcode op = some (.r make)) :
    decodeWith read = withByte read 1 fun a => .instr (make a) := by
  simp only [decodeWith, withByte_of_some h0, hl]

/-- Two operand bytes, whatever they are (formats RR and RI). -/
theorem decodeWith_of_two {make : Byte → Byte → Instr}
    (hl : lookupOpcode op = some (.rr make) ∨ lookupOpcode op = some (.ri make)) :
    decodeWith read = withByte read 1 fun a => withByte read 2 fun b => .instr (make a b) := by
  rcases hl with hl | hl <;> simp only [decodeWith, withByte_of_some h0, hl]

end

/-- A reader holds one operand byte. -/
theorem holds_one (read : Nat → Option Byte) (a : Byte) :
    (∀ j, (h : j < [a].length) → read (j + 1) = some [a][j]) ↔ read 1 = some a :=
  ⟨fun h => h 0 Nat.one_pos, fun h j hj => by
    obtain rfl : j = 0 := by simpa using hj
    exact h⟩

/-- A reader holds two operand bytes. -/
theorem holds_two (read : Nat → Option Byte) (a b : Byte) :
    (∀ j, (h : j < [a, b].length) → read (j + 1) = some [a, b][j]) ↔
      read 1 = some a ∧ read 2 = some b :=
  ⟨fun h => ⟨h 0 Nat.two_pos, h 1 Nat.one_lt_two⟩, fun h j hj => by
    obtain rfl | rfl : j = 0 ∨ j = 1 := by simp at hj; omega
    · exact h.1
    · exact h.2⟩

/-- The decoder answers exactly the instruction whose encoding the reader holds. -/
theorem decodeWith_eq_instr_iff (read : Nat → Option Byte) (i : Instr) :
    decodeWith read = .instr i ↔ ∀ j, (h : j < (encode i).length) → read j = some (encode i)[j] := by
  have holds : (∀ j, (h : j < (encode i).length) → read j = some (encode i)[j]) ↔
      read 0 = some i.opcode ∧ ∀ j, (h : j < i.operands.length) → read (j + 1) = some i.operands[j] := by
    constructor
    · exact fun h => ⟨h 0 (Nat.zero_lt_succ _), fun j hj => h (j + 1) (Nat.succ_lt_succ hj)⟩
    · rintro ⟨h0, hs⟩ (_ | j) hj
      · exact h0
      · exact hs j (Nat.lt_of_succ_lt_succ hj)
  rw [holds]
  cases h0 : read 0 with
  | none => simp [decodeWith, withByte_of_none h0]
  | some op =>
    rcases lookupOpcode_cases op with h | h | h | h | h | h | h | h | h | h | h | h <;>
      obtain ⟨hop, hl⟩ := h
    case inr.inr.inr.inr.inr.inr.inr.inr.inr.inr.inr =>
      rw [decodeWith_of_none h0 hl]
      simp only [BitVec.ofNat_eq_ofNat, ne_eq] at hop
      cases i <;> simp [Instr.opcode, hop]
    all_goals
      subst hop
      first
        | rw [decodeWith_of_z h0 hl]
        | rw [decodeWith_of_r h0 hl]
        | rw [decodeWith_of_two h0 (.inl hl)]
        | rw [decodeWith_of_two h0 (.inr hl)]
      cases i <;> cases h1 : read 1 <;> cases h2 : read 2 <;>
        simp only [Instr.operands, holds_one, holds_two] <;>
        simp [Instr.opcode, withByte, h1, h2]

end Sys2Proof
end

