-- ==== Sys2Proof/Laws/Memory.lean ====
section
/-! SUPPORT. The laws of the memory array: what a cell reads as after a write (R39, R46), and that every
operation keeps the canonical form. -/

namespace Sys2Proof.Machine

@[simp] theorem Memory.read_nil (addr : Nat) : Memory.read [] addr = 0 := rfl

theorem Memory.read_cons (c : Host.Cell) (m : Memory) (addr : Nat) :
    Memory.read (c :: m) addr = if c.1 = addr then c.2 else Memory.read m addr := by
  by_cases h : c.1 = addr <;> simp [Memory.read, h]

/-- Cells listed before others are read first. -/
theorem Memory.read_append (m n : Memory) (addr : Nat) :
    Memory.read (m ++ n) addr =
      if ∃ c ∈ m, c.1 = addr then Memory.read m addr else Memory.read n addr := by
  induction m with
  | nil => simp
  | cons c m ih =>
    rw [List.cons_append, read_cons, read_cons, ih]
    by_cases h : c.1 = addr <;> simp [h]

/-- Cells that a filter keeps by their address are read as before. -/
theorem Memory.read_filter_of_true {p : Nat → Bool} {addr : Nat} (h : p addr = true) (m : Memory) :
    Memory.read (m.filter fun c => p c.1) addr = Memory.read m addr := by
  induction m with
  | nil => rfl
  | cons c m ih =>
    by_cases hc : c.1 = addr
    · simp [hc, h, read_cons]
    · cases hp : p c.1 <;> simp [hp, read_cons, hc, ih]

/-- A cell that no entry lists reads as an unlisted one. -/
theorem Memory.read_of_forall_ne {m : Memory} {addr : Nat} (h : ∀ c ∈ m, c.1 ≠ addr) :
    Memory.read m addr = 0 := by
  induction m with
  | nil => rfl
  | cons c m ih =>
    rw [read_cons, if_neg (h c (by simp)), ih fun d hd => h d (by simp [hd])]

/-- A filter by address that drops an address leaves it unlisted. -/
theorem Memory.read_filter_of_false {p : Nat → Bool} {addr : Nat} (h : p addr = false) (m : Memory) :
    Memory.read (m.filter fun c => p c.1) addr = 0 :=
  read_of_forall_ne fun c hc hca => by
    have := (List.mem_filter.1 hc).2
    rw [hca, h] at this
    cases this

/-- A cell that no entry of the first list names is read in the second. -/
theorem Memory.read_append_of_forall_ne {m : Memory} {addr : Nat} (h : ∀ c ∈ m, c.1 ≠ addr)
    (n : Memory) : Memory.read (m ++ n) addr = Memory.read n addr := by
  rw [read_append, if_neg (by rintro ⟨c, hc, hca⟩; exact h c hc hca)]

/-- Where the second list reads as unlisted, so that only the first counts. -/
theorem Memory.read_append_of_unlisted (m : Memory) {n : Memory} {addr : Nat}
    (h : Memory.read n addr = 0) : Memory.read (m ++ n) addr = Memory.read m addr := by
  rw [read_append]
  split
  · rfl
  · rename_i hno
    rw [h, read_of_forall_ne fun c hc hca => hno ⟨c, hc, hca⟩]

/-- R39: the written cell holds the value, and every other cell is as before. -/
theorem Memory.read_write (m : Memory) (addr other : Nat) (v : Byte) :
    (m.write addr v).read other = if addr = other then v else m.read other := by
  have below : other < addr ∨ ∀ c ∈ m.filter (fun c => decide (c.1 < addr)), c.1 ≠ other := by
    refine (Nat.lt_or_ge other addr).imp_right fun h c hc hco => ?_
    have := (List.mem_filter.1 hc).2
    simp only [decide_eq_true_eq] at this
    omega
  have mid : Memory.read (if v = Memory.unlisted then [] else [(addr, v)]) other =
      if addr = other then v else 0 := by
    by_cases hv : v = Memory.unlisted
    · rw [if_pos hv, hv]
      simp
    · rw [if_neg hv, read_cons, read_nil]
  have midNe (h : addr ≠ other) :
      ∀ c ∈ (if v = Memory.unlisted then [] else [((addr, v) : Host.Cell)]), c.1 ≠ other := by
    intro c hc
    split at hc
    · cases hc
    · rw [List.mem_singleton.1 hc]
      exact h
  rw [write]
  rcases Nat.lt_trichotomy other addr with h | rfl | h
  · rw [if_neg (show ¬addr = other by omega), read_append_of_unlisted,
      read_filter_of_true (addr := other) (p := fun a => decide (a < addr)) (decide_eq_true h)]
    rw [read_append_of_forall_ne (midNe (show ¬addr = other by omega))]
    exact read_filter_of_false (addr := other) (p := fun a => decide (addr < a)) (decide_eq_false (by omega)) m
  · rw [read_append_of_forall_ne (below.resolve_left (Nat.lt_irrefl _)), read_append_of_unlisted,
      mid, if_pos rfl, if_pos rfl]
    exact read_filter_of_false (addr := other) (p := fun a => decide (other < a))
      (decide_eq_false (by omega)) m
  · rw [read_append_of_forall_ne (below.resolve_left (by omega)),
      read_append_of_forall_ne (midNe (show ¬addr = other by omega)), if_neg (show ¬addr = other by omega)]
    exact read_filter_of_true (addr := other) (p := fun a => decide (addr < a)) (decide_eq_true h) m

@[simp] theorem Memory.read_write_same (m : Memory) (addr : Nat) (v : Byte) :
    (m.write addr v).read addr = v := by
  rw [read_write, if_pos rfl]

theorem Memory.read_write_of_ne {addr other : Nat} (h : other ≠ addr) (m : Memory) (v : Byte) :
    (m.write addr v).read other = m.read other := by
  rw [read_write, if_neg (Ne.symm h)]

/-- After consecutive writes a cell inside the range and the memory holds its byte; every other cell is
as before. -/
theorem Memory.read_writeBytes (bytes : List Byte) (m : Memory) (base addr : Nat) :
    (m.writeBytes base bytes).read addr =
      if base ≤ addr ∧ addr < 256 then (bytes[addr - base]?).getD (m.read addr) else m.read addr := by
  induction bytes generalizing m base with
  | nil => simp [writeBytes]
  | cons v vs ih =>
    have first : (if base < Config.memorySize then m.write base v else m).read addr =
        if base = addr ∧ addr < 256 then v else m.read addr := by
      by_cases hb : base < 256
      · rw [if_pos hb, read_write]
        exact if_congr (by omega) rfl rfl
      · rw [if_neg hb, if_neg (by omega)]
    rw [writeBytes, ih, first]
    rcases Nat.lt_trichotomy addr base with h | rfl | h
    · rw [if_neg (by omega), if_neg (by omega), if_neg (by omega)]
    · by_cases h256 : addr < 256 <;> simp [h256]
    · rw [show addr - base = addr - (base + 1) + 1 by omega, List.getElem?_cons_succ,
        if_neg (by omega : ¬(base = addr ∧ addr < 256))]
      exact if_congr (by omega) rfl rfl

theorem Memory.wf_nil : Memory.wf [] := by simp [Memory.wf]

/-- A write inside the memory keeps the canonical form. -/
theorem Memory.write_wf {m : Memory} (h : m.wf) {addr : Nat} (ha : addr < 256) (v : Byte) :
    (m.write addr v).wf := by
  obtain ⟨hs, hc⟩ := h
  have hmid : ∀ d ∈ (if v = Memory.unlisted then [] else [((addr, v) : Host.Cell)]),
      d.1 = addr ∧ d.2 ≠ Memory.unlisted := by
    intro d hd
    split at hd
    · cases hd
    · rename_i hv
      simp only [List.mem_singleton] at hd
      exact hd ▸ ⟨rfl, hv⟩
  have hbelow : ∀ c ∈ m.filter (fun c => decide (c.1 < addr)), c ∈ m ∧ c.1 < addr := fun c h => by
    simpa using List.mem_filter.1 h
  have habove : ∀ c ∈ m.filter (fun c => decide (addr < c.1)), c ∈ m ∧ addr < c.1 := fun c h => by
    simpa using List.mem_filter.1 h
  refine ⟨?_, ?_⟩
  · rw [write, List.pairwise_append, List.pairwise_append]
    refine ⟨hs.sublist List.filter_sublist, ⟨?_, hs.sublist List.filter_sublist, ?_⟩, ?_⟩
    · split <;> simp
    · intro d hd c hc
      have := (habove c hc).2
      rw [(hmid d hd).1]
      exact this
    · intro c hcb d hd
      have hlt := (hbelow c hcb).2
      rcases List.mem_append.1 hd with hd | hd
      · rw [(hmid d hd).1]
        exact hlt
      · exact Nat.lt_trans hlt (habove d hd).2
  · intro c hcw
    rw [write, List.mem_append, List.mem_append] at hcw
    rcases hcw with h | h | h
    · exact hc c (hbelow c h).1
    · exact ⟨by rw [(hmid c h).1]; exact ha, (hmid c h).2⟩
    · exact hc c (habove c h).1

/-- Consecutive writes keep the canonical form, wherever they begin. -/
theorem Memory.writeBytes_wf (bytes : List Byte) {m : Memory} (h : m.wf) (base : Nat) :
    (m.writeBytes base bytes).wf := by
  induction bytes generalizing m base with
  | nil => exact h
  | cons v vs ih =>
    rw [writeBytes]
    apply ih
    split
    · rename_i hb
      exact write_wf h hb v
    · exact h

end Sys2Proof.Machine
end

