-- ==== Sys2Proof/Laws/State.lean ====
section
/-! SUPPORT. One lemma per field per update of State, so that no later proof unfolds a record update. -/

namespace Sys2Proof.Machine.State

variable (s : State)

@[simp] theorem setReg_x (i : Fin 8) (v : Byte) : (s.setReg i v).x = s.x.set i v := rfl
@[simp] theorem setReg_sp (i : Fin 8) (v : Byte) : (s.setReg i v).sp = s.sp := rfl
@[simp] theorem setReg_pc (i : Fin 8) (v : Byte) : (s.setReg i v).pc = s.pc := rfl
@[simp] theorem setReg_fl (i : Fin 8) (v : Byte) : (s.setReg i v).fl = s.fl := rfl
@[simp] theorem setReg_run (i : Fin 8) (v : Byte) : (s.setReg i v).run = s.run := rfl
@[simp] theorem setReg_fault (i : Fin 8) (v : Byte) : (s.setReg i v).fault = s.fault := rfl
@[simp] theorem setReg_mem (i : Fin 8) (v : Byte) : (s.setReg i v).mem = s.mem := rfl
@[simp] theorem setReg_out (i : Fin 8) (v : Byte) : (s.setReg i v).out = s.out := rfl

@[simp] theorem setSp_x (v : Byte) : (s.setSp v).x = s.x := rfl
@[simp] theorem setSp_sp (v : Byte) : (s.setSp v).sp = v := rfl
@[simp] theorem setSp_pc (v : Byte) : (s.setSp v).pc = s.pc := rfl
@[simp] theorem setSp_fl (v : Byte) : (s.setSp v).fl = s.fl := rfl
@[simp] theorem setSp_run (v : Byte) : (s.setSp v).run = s.run := rfl
@[simp] theorem setSp_fault (v : Byte) : (s.setSp v).fault = s.fault := rfl
@[simp] theorem setSp_mem (v : Byte) : (s.setSp v).mem = s.mem := rfl
@[simp] theorem setSp_out (v : Byte) : (s.setSp v).out = s.out := rfl

@[simp] theorem setFl_x (f : Flag) : (s.setFl f).x = s.x := rfl
@[simp] theorem setFl_sp (f : Flag) : (s.setFl f).sp = s.sp := rfl
@[simp] theorem setFl_pc (f : Flag) : (s.setFl f).pc = s.pc := rfl
@[simp] theorem setFl_fl (f : Flag) : (s.setFl f).fl = f := rfl
@[simp] theorem setFl_run (f : Flag) : (s.setFl f).run = s.run := rfl
@[simp] theorem setFl_fault (f : Flag) : (s.setFl f).fault = s.fault := rfl
@[simp] theorem setFl_mem (f : Flag) : (s.setFl f).mem = s.mem := rfl
@[simp] theorem setFl_out (f : Flag) : (s.setFl f).out = s.out := rfl

@[simp] theorem setMem_x (m : Memory) : (s.setMem m).x = s.x := rfl
@[simp] theorem setMem_sp (m : Memory) : (s.setMem m).sp = s.sp := rfl
@[simp] theorem setMem_pc (m : Memory) : (s.setMem m).pc = s.pc := rfl
@[simp] theorem setMem_fl (m : Memory) : (s.setMem m).fl = s.fl := rfl
@[simp] theorem setMem_run (m : Memory) : (s.setMem m).run = s.run := rfl
@[simp] theorem setMem_fault (m : Memory) : (s.setMem m).fault = s.fault := rfl
@[simp] theorem setMem_mem (m : Memory) : (s.setMem m).mem = m := rfl
@[simp] theorem setMem_out (m : Memory) : (s.setMem m).out = s.out := rfl

@[simp] theorem emit_x (e : Event) : (s.emit e).x = s.x := rfl
@[simp] theorem emit_sp (e : Event) : (s.emit e).sp = s.sp := rfl
@[simp] theorem emit_pc (e : Event) : (s.emit e).pc = s.pc := rfl
@[simp] theorem emit_fl (e : Event) : (s.emit e).fl = s.fl := rfl
@[simp] theorem emit_run (e : Event) : (s.emit e).run = s.run := rfl
@[simp] theorem emit_fault (e : Event) : (s.emit e).fault = s.fault := rfl
@[simp] theorem emit_mem (e : Event) : (s.emit e).mem = s.mem := rfl
@[simp] theorem emit_out (e : Event) : (s.emit e).out = s.out ++ [e] := rfl

@[simp] theorem advance_x (k : Nat) : (s.advance k).x = s.x := rfl
@[simp] theorem advance_sp (k : Nat) : (s.advance k).sp = s.sp := rfl
@[simp] theorem advance_pc (k : Nat) : (s.advance k).pc = s.pc + 1 + k := rfl
@[simp] theorem advance_fl (k : Nat) : (s.advance k).fl = s.fl := rfl
@[simp] theorem advance_run (k : Nat) : (s.advance k).run = s.run := rfl
@[simp] theorem advance_fault (k : Nat) : (s.advance k).fault = s.fault := rfl
@[simp] theorem advance_mem (k : Nat) : (s.advance k).mem = s.mem := rfl
@[simp] theorem advance_out (k : Nat) : (s.advance k).out = s.out := rfl

@[simp] theorem jump_x (target : Byte) : (s.jump target).x = s.x := rfl
@[simp] theorem jump_sp (target : Byte) : (s.jump target).sp = s.sp := rfl
@[simp] theorem jump_pc (target : Byte) : (s.jump target).pc = target.toNat := rfl
@[simp] theorem jump_fl (target : Byte) : (s.jump target).fl = s.fl := rfl
@[simp] theorem jump_run (target : Byte) : (s.jump target).run = s.run := rfl
@[simp] theorem jump_fault (target : Byte) : (s.jump target).fault = s.fault := rfl
@[simp] theorem jump_mem (target : Byte) : (s.jump target).mem = s.mem := rfl
@[simp] theorem jump_out (target : Byte) : (s.jump target).out = s.out := rfl

@[simp] theorem halt_x : (s.halt).x = s.x := rfl
@[simp] theorem halt_sp : (s.halt).sp = s.sp := rfl
@[simp] theorem halt_pc : (s.halt).pc = s.pc := rfl
@[simp] theorem halt_fl : (s.halt).fl = s.fl := rfl
@[simp] theorem halt_run : (s.halt).run = RunState.halted := rfl
@[simp] theorem halt_fault : (s.halt).fault = s.fault := rfl
@[simp] theorem halt_mem : (s.halt).mem = s.mem := rfl
@[simp] theorem halt_out : (s.halt).out = s.out := rfl

@[simp] theorem raiseFatal_x (kind : FatalKind) (info : Nat) : (s.raiseFatal kind info).x = s.x := rfl
@[simp] theorem raiseFatal_sp (kind : FatalKind) (info : Nat) : (s.raiseFatal kind info).sp = s.sp := rfl
@[simp] theorem raiseFatal_pc (kind : FatalKind) (info : Nat) : (s.raiseFatal kind info).pc = s.pc := rfl
@[simp] theorem raiseFatal_fl (kind : FatalKind) (info : Nat) : (s.raiseFatal kind info).fl = s.fl := rfl
@[simp] theorem raiseFatal_run (kind : FatalKind) (info : Nat) : (s.raiseFatal kind info).run = RunState.faulted := rfl
@[simp] theorem raiseFatal_fault (kind : FatalKind) (info : Nat) : (s.raiseFatal kind info).fault = some ⟨kind, s.pc, info⟩ := rfl
@[simp] theorem raiseFatal_mem (kind : FatalKind) (info : Nat) : (s.raiseFatal kind info).mem = s.mem := rfl
@[simp] theorem raiseFatal_out (kind : FatalKind) (info : Nat) : (s.raiseFatal kind info).out = s.out ++ [.diagnostic ⟨kind, s.pc, info⟩] := rfl

/-- A register that has just been written holds the value; every other one is as before. -/
theorem reg_setReg (i j : Fin 8) (v : Byte) :
    (s.setReg i v).reg j = if i = j then v else s.reg j := by
  simp only [reg, setReg, Fin.getElem_fin, Vector.getElem_set, Fin.ext_iff]

/-- Reading a register reads the register file alone. -/
theorem reg_congr {s t : State} (h : t.x = s.x) (i : Fin 8) : t.reg i = s.reg i := by
  simp only [reg, h]

end Sys2Proof.Machine.State
end

