-- ==== Sys2Proof/Laws/Ops.lean ====
section
/-! SUPPORT. What the shared operations answer: each lemma says all an operation can do, and is cited
instead of unfolding it. -/

namespace Sys2Proof.Machine

/-! ### Checked memory accesses -/

theorem State.cell?_of_lt (s : State) {addr : Nat} (h : addr < 256) :
    s.cell? addr = some (s.mem.read addr) := if_pos h

theorem State.cell?_of_ge (s : State) {addr : Nat} (h : 256 ≤ addr) : s.cell? addr = none :=
  if_neg (by simpa using h)

theorem State.cell?_eq_some_iff (s : State) (addr : Nat) (v : Byte) :
    s.cell? addr = some v ↔ addr < 256 ∧ s.mem.read addr = v := by
  by_cases h : addr < 256
  · simp [s.cell?_of_lt h, h]
  · simp [s.cell?_of_ge (Nat.le_of_not_lt h), h]

theorem State.memRead_of_lt (s : State) {addr : Nat} (h : addr < 256) (k : Byte → Result) :
    s.memRead addr k = k (s.mem.read addr) := by
  simp only [memRead, s.cell?_of_lt h]

theorem State.memRead_of_ge (s : State) {addr : Nat} (h : 256 ≤ addr) (k : Byte → Result) :
    s.memRead addr k = .next (s.raiseFatal .memoryOutOfRange addr) := by
  simp only [memRead, s.cell?_of_ge h]

theorem State.memWrite_of_lt (s : State) {addr : Nat} (h : addr < 256) (v : Byte)
    (k : State → Result) : s.memWrite addr v k = k (s.setMem (s.mem.write addr v)) := if_pos h

theorem State.memWrite_of_ge (s : State) {addr : Nat} (h : 256 ≤ addr) (v : Byte)
    (k : State → Result) :
    s.memWrite addr v k = .next (s.raiseFatal .memoryOutOfRange addr) :=
  if_neg (by simpa using h)

/-! ### Register operands -/

theorem State.withReg_of_lt (s : State) {r : Byte} (h : r.toNat < 8) (k : Fin 8 → Result) :
    s.withReg r k = k ⟨r.toNat, h⟩ := by
  simp only [withReg, regIndex?, dif_pos h]

theorem State.withReg_of_ge (s : State) {r : Byte} (h : 8 ≤ r.toNat) (k : Fin 8 → Result) :
    s.withReg r k = .next (s.raiseFatal .invalidRegister r.toNat) := by
  simp only [withReg, regIndex?, dif_neg (Nat.not_lt.2 h)]

theorem State.withRegs_of_lt (s : State) {a b : Byte} (ha : a.toNat < 8) (hb : b.toNat < 8)
    (k : Fin 8 → Fin 8 → Result) : s.withRegs a b k = k ⟨a.toNat, ha⟩ ⟨b.toNat, hb⟩ := by
  rw [withRegs, s.withReg_of_lt ha, s.withReg_of_lt hb]

theorem State.withRegs_of_first_ge (s : State) {a : Byte} (ha : 8 ≤ a.toNat) (b : Byte)
    (k : Fin 8 → Fin 8 → Result) :
    s.withRegs a b k = .next (s.raiseFatal .invalidRegister a.toNat) := by
  rw [withRegs, s.withReg_of_ge ha]

theorem State.withRegs_of_second_ge (s : State) {a b : Byte} (ha : a.toNat < 8) (hb : 8 ≤ b.toNat)
    (k : Fin 8 → Fin 8 → Result) :
    s.withRegs a b k = .next (s.raiseFatal .invalidRegister b.toNat) := by
  rw [withRegs, s.withReg_of_lt ha, s.withReg_of_ge hb]

/-! ### Narrowing and the stack addresses -/

theorem wrap_toNat (v : Nat) : (wrap v).toNat = v % 256 := by
  simp [wrap]

theorem spBelow_toNat (sp : Byte) : (spBelow sp).toNat = (sp.toNat + 255) % 256 := by
  simp [spBelow, BitVec.toNat_sub]
  omega

theorem spAbove_toNat (sp : Byte) : (spAbove sp).toNat = (sp.toNat + 1) % 256 := by
  simp [spAbove, BitVec.toNat_add]

theorem State.pushAddress_lt (s : State) : s.pushAddress < 256 := s.sp.isLt

theorem State.popAddress_lt (s : State) : s.popAddress < 256 := (spAbove s.sp).isLt

theorem State.popAddress_eq (s : State) : s.popAddress = (s.sp.toNat + 1) % 256 :=
  spAbove_toNat s.sp

/-! ### The ALU -/

/-- The ALU writes its first register or `fl`, and nothing else. -/
theorem State.aluApply_frame (s : State) (op : AluOp) (a b : Fin 8) :
    (s.aluApply op a b).sp = s.sp ∧ (s.aluApply op a b).pc = s.pc ∧
    (s.aluApply op a b).run = s.run ∧ (s.aluApply op a b).fault = s.fault ∧
    (s.aluApply op a b).mem = s.mem ∧ (s.aluApply op a b).out = s.out ∧
    (op ≠ .cmp → (s.aluApply op a b).fl = s.fl) ∧
    (op = .cmp → (s.aluApply op a b).x = s.x) ∧
    ∀ j, j ≠ a → (s.aluApply op a b).reg j = s.reg j := by
  cases op with
  | add => simp +contextual [aluApply, reg_setReg, eq_comm]
  | mul => simp +contextual [aluApply, reg_setReg, eq_comm]
  | cmp => simp [aluApply, reg]

end Sys2Proof.Machine
end

