-- ==== Sys2Proof/Laws/PerInstr.lean ====
section
/-! SUPPORT. Statements for all instructions, made per instruction: the length of an encoding and the
operands it holds (R51, R52), and the layout that the opcode bytes happen to have (R54). -/

/-- The encoding is the opcode byte and the operands of the opcode's row of the map: as many as the row
declares, and the register operands are among them, in order (R51, R52, R53). -/
def Sys2Proof.Laws.EncodedOperands.Statement (i : Sys2Proof.Instr) : Prop :=
  (Sys2Proof.lookupOpcode i.opcode).map Sys2Proof.Shape.operandCount = some i.operands.length ∧
    (Sys2Proof.encode i).length = 1 + i.operands.length ∧ i.registerOperands <+: i.operands

/-- R54: bits 7:6 of the opcode byte are the operand count, bit 5 is set exactly for ADD, MUL and CMP,
and bit 4 exactly for JMP, JEQ and JNE. -/
def Sys2Proof.Laws.OpcodeLayout.Statement (i : Sys2Proof.Instr) : Prop :=
  i.opcode.toNat / 64 = i.operands.length ∧
    (i.opcode.toNat / 32 % 2 = 1 ↔ ∃ a b, i = .add a b ∨ i = .mul a b ∨ i = .cmp a b) ∧
    (i.opcode.toNat / 16 % 2 = 1 ↔ ∃ a, i = .jmp a ∨ i = .jeq a ∨ i = .jne a)

namespace Sys2Proof.Laws

theorem EncodedOperands.ldi (a b : Byte) : EncodedOperands.Statement (.ldi a b) :=
  ⟨rfl, rfl, ⟨[b], rfl⟩⟩

theorem EncodedOperands.prn (a : Byte) : EncodedOperands.Statement (.prn a) :=
  ⟨rfl, rfl, ⟨[], rfl⟩⟩

theorem EncodedOperands.add (a b : Byte) : EncodedOperands.Statement (.add a b) :=
  ⟨rfl, rfl, ⟨[], rfl⟩⟩

theorem EncodedOperands.mul (a b : Byte) : EncodedOperands.Statement (.mul a b) :=
  ⟨rfl, rfl, ⟨[], rfl⟩⟩

theorem EncodedOperands.cmp (a b : Byte) : EncodedOperands.Statement (.cmp a b) :=
  ⟨rfl, rfl, ⟨[], rfl⟩⟩

theorem EncodedOperands.push (a : Byte) : EncodedOperands.Statement (.push a) :=
  ⟨rfl, rfl, ⟨[], rfl⟩⟩

theorem EncodedOperands.pop (a : Byte) : EncodedOperands.Statement (.pop a) :=
  ⟨rfl, rfl, ⟨[], rfl⟩⟩

theorem EncodedOperands.jmp (a : Byte) : EncodedOperands.Statement (.jmp a) :=
  ⟨rfl, rfl, ⟨[], rfl⟩⟩

theorem EncodedOperands.jeq (a : Byte) : EncodedOperands.Statement (.jeq a) :=
  ⟨rfl, rfl, ⟨[], rfl⟩⟩

theorem EncodedOperands.jne (a : Byte) : EncodedOperands.Statement (.jne a) :=
  ⟨rfl, rfl, ⟨[], rfl⟩⟩

theorem EncodedOperands.hlt : EncodedOperands.Statement .hlt :=
  ⟨rfl, rfl, ⟨[], rfl⟩⟩

theorem OpcodeLayout.ldi (a b : Byte) : OpcodeLayout.Statement (.ldi a b) := by
  refine ⟨?_, ?_, ?_⟩ <;> simp [Instr.opcode, Instr.operands]

theorem OpcodeLayout.prn (a : Byte) : OpcodeLayout.Statement (.prn a) := by
  refine ⟨?_, ?_, ?_⟩ <;> simp [Instr.opcode, Instr.operands]

theorem OpcodeLayout.add (a b : Byte) : OpcodeLayout.Statement (.add a b) := by
  refine ⟨?_, ?_, ?_⟩ <;> simp [Instr.opcode, Instr.operands]

theorem OpcodeLayout.mul (a b : Byte) : OpcodeLayout.Statement (.mul a b) := by
  refine ⟨?_, ?_, ?_⟩ <;> simp [Instr.opcode, Instr.operands]

theorem OpcodeLayout.cmp (a b : Byte) : OpcodeLayout.Statement (.cmp a b) := by
  refine ⟨?_, ?_, ?_⟩ <;> simp [Instr.opcode, Instr.operands]

theorem OpcodeLayout.push (a : Byte) : OpcodeLayout.Statement (.push a) := by
  refine ⟨?_, ?_, ?_⟩ <;> simp [Instr.opcode, Instr.operands]

theorem OpcodeLayout.pop (a : Byte) : OpcodeLayout.Statement (.pop a) := by
  refine ⟨?_, ?_, ?_⟩ <;> simp [Instr.opcode, Instr.operands]

theorem OpcodeLayout.jmp (a : Byte) : OpcodeLayout.Statement (.jmp a) := by
  refine ⟨?_, ?_, ?_⟩ <;> simp [Instr.opcode, Instr.operands]

theorem OpcodeLayout.jeq (a : Byte) : OpcodeLayout.Statement (.jeq a) := by
  refine ⟨?_, ?_, ?_⟩ <;> simp [Instr.opcode, Instr.operands]

theorem OpcodeLayout.jne (a : Byte) : OpcodeLayout.Statement (.jne a) := by
  refine ⟨?_, ?_, ?_⟩ <;> simp [Instr.opcode, Instr.operands]

theorem OpcodeLayout.hlt : OpcodeLayout.Statement .hlt := by
  refine ⟨?_, ?_, ?_⟩ <;> simp [Instr.opcode, Instr.operands]

end Sys2Proof.Laws
end

