-- ==== Sys2Proof/Laws/Step.lean ====
section
/-! SUPPORT. What the fetch, an instruction and a step can do, said once. -/

namespace Sys2Proof.Machine

/-- Nothing stops a step exactly while `run` = RUNNING (R63). -/
theorem State.noStep?_eq_none_iff (s : State) : s.noStep? = none ↔ s.run = .running := by
  cases h : s.run <;> simp [noStep?, h]

/-- The fetch gives an instruction exactly if the bytes of its encoding stand in memory at `pc`. -/
theorem State.fetch_eq_instr_iff (s : State) (i : Instr) :
    s.fetch = .instr i ↔
      ∀ j, (h : j < (encode i).length) → s.pc + j < 256 ∧ s.mem.read (s.pc + j) = (encode i)[j] := by
  have : s.fetch = .instr i ↔ decodeWith (fun offset => s.cell? (s.pc + offset)) = .instr i := by
    cases h : decodeWith (fun offset => s.cell? (s.pc + offset)) <;> simp [fetch, h]
  rw [this, decodeWith_eq_instr_iff]
  simp only [State.cell?_eq_some_iff]

/-- Every instruction answers a next state, in every state. -/
theorem exec_next (i : Instr) (s : State) : ∃ t, exec i s = .next t := by
  have one (r : Byte) (k : Fin 8 → Result) (hk : ∀ j, ∃ t, k j = .next t) :
      ∃ t, s.withReg r k = .next t := by
    by_cases h : r.toNat < 8
    · rw [s.withReg_of_lt h]
      exact hk _
    · rw [s.withReg_of_ge (Nat.le_of_not_lt h)]
      exact ⟨_, rfl⟩
  cases i with
  | ldi a b => exact one a _ fun _ => ⟨_, rfl⟩
  | prn a => exact one a _ fun _ => ⟨_, rfl⟩
  | add a b => exact one a _ fun _ => one b _ fun _ => ⟨_, rfl⟩
  | mul a b => exact one a _ fun _ => one b _ fun _ => ⟨_, rfl⟩
  | cmp a b => exact one a _ fun _ => one b _ fun _ => ⟨_, rfl⟩
  | push a => exact one a _ fun i => ⟨_, s.memWrite_of_lt s.pushAddress_lt _ _⟩
  | pop a => exact one a _ fun i => ⟨_, s.memRead_of_lt s.popAddress_lt _⟩
  | jmp a => exact one a _ fun _ => ⟨_, rfl⟩
  | jeq a => exact one a _ fun _ => ⟨_, rfl⟩
  | jne a => exact one a _ fun _ => ⟨_, rfl⟩
  | hlt => exact ⟨_, rfl⟩

/-- What a well-formed instruction does, one line per instruction, with every checked access resolved. -/
theorem exec_of_wellFormed {i : Instr} (h : i.wellFormed = true) (s : State) :
    match i with
    | .ldi a b => ∃ ha : a.toNat < 8, exec i s = .next ((s.setReg ⟨a.toNat, ha⟩ b).advance 2)
    | .prn a =>
      ∃ ha : a.toNat < 8, exec i s = .next ((s.emit (.print (s.reg ⟨a.toNat, ha⟩))).advance 1)
    | .add a b => ∃ (ha : a.toNat < 8) (hb : b.toNat < 8),
      exec i s = .next ((s.aluApply .add ⟨a.toNat, ha⟩ ⟨b.toNat, hb⟩).advance 2)
    | .mul a b => ∃ (ha : a.toNat < 8) (hb : b.toNat < 8),
      exec i s = .next ((s.aluApply .mul ⟨a.toNat, ha⟩ ⟨b.toNat, hb⟩).advance 2)
    | .cmp a b => ∃ (ha : a.toNat < 8) (hb : b.toNat < 8),
      exec i s = .next ((s.aluApply .cmp ⟨a.toNat, ha⟩ ⟨b.toNat, hb⟩).advance 2)
    | .push a => ∃ ha : a.toNat < 8, exec i s = .next
      (((s.setMem (s.mem.write s.pushAddress (s.reg ⟨a.toNat, ha⟩))).setSp (spBelow s.sp)).advance 1)
    | .pop a => ∃ ha : a.toNat < 8, exec i s = .next
      (((s.setReg ⟨a.toNat, ha⟩ (s.mem.read s.popAddress)).setSp (spAbove s.sp)).advance 1)
    | .jmp a => ∃ ha : a.toNat < 8, exec i s = .next (s.jump (s.reg ⟨a.toNat, ha⟩))
    | .jeq a => ∃ ha : a.toNat < 8,
      exec i s = .next (if s.flagIsEqual then s.jump (s.reg ⟨a.toNat, ha⟩) else s.advance 1)
    | .jne a => ∃ ha : a.toNat < 8,
      exec i s = .next (if s.flagIsEqual then s.advance 1 else s.jump (s.reg ⟨a.toNat, ha⟩))
    | .hlt => exec i s = .next s.halt := by
  cases i <;>
    simp only [Instr.wellFormed, Instr.registerOperands, List.all_cons, List.all_nil, Bool.and_true,
      Bool.and_eq_true, decide_eq_true_eq] at h
  case ldi a b => exact ⟨h, s.withReg_of_lt h _⟩
  case prn a => exact ⟨h, s.withReg_of_lt h _⟩
  case add a b => exact ⟨h.1, h.2, s.withRegs_of_lt h.1 h.2 _⟩
  case mul a b => exact ⟨h.1, h.2, s.withRegs_of_lt h.1 h.2 _⟩
  case cmp a b => exact ⟨h.1, h.2, s.withRegs_of_lt h.1 h.2 _⟩
  case push a => exact ⟨h, (s.withReg_of_lt h _).trans (s.memWrite_of_lt s.pushAddress_lt _ _)⟩
  case pop a => exact ⟨h, (s.withReg_of_lt h _).trans (s.memRead_of_lt s.popAddress_lt _)⟩
  case jmp a => exact ⟨h, s.withReg_of_lt h _⟩
  case jeq a => exact ⟨h, s.withReg_of_lt h _⟩
  case jne a => exact ⟨h, s.withReg_of_lt h _⟩
  case hlt => rfl

/-- All a step can do: it raises the fatal condition of its fetch, or it runs the fetched instruction. -/
theorem step_cases {s t : State} (h : step s = .next t) :
    s.run = .running ∧
      ((∃ kind info, s.fetch = .fatal kind info ∧ t = s.raiseFatal kind info) ∨
        ∃ i, s.fetch = .instr i ∧ exec i s = .next t) := by
  unfold step at h
  split at h
  · cases h
  · rename_i hrun
    refine ⟨s.noStep?_eq_none_iff.1 hrun, ?_⟩
    split at h
    · exact .inr ⟨_, ‹_›, h⟩
    · cases h
      exact .inl ⟨_, _, ‹_›, rfl⟩

/-- A running state runs the instruction it fetches. -/
theorem step_of_fetch_instr {s : State} (h : s.run = .running) {i : Instr} (hf : s.fetch = .instr i) :
    step s = exec i s := by
  simp only [step, s.noStep?_eq_none_iff.2 h, hf]

/-- A running state raises the fatal condition of its fetch. -/
theorem step_of_fetch_fatal {s : State} (h : s.run = .running) {kind : FatalKind} {info : Nat}
    (hf : s.fetch = .fatal kind info) : step s = .next (s.raiseFatal kind info) := by
  simp only [step, s.noStep?_eq_none_iff.2 h, hf]

end Sys2Proof.Machine
end

