-- ==== Sys2Proof/Tests/Slice0.lean ====
section
/-! SUPPORT. The model's own tests. Expected results are those of spec/ alone: the encodings of R52 and
R53, and the vectors of 95_test_vectors.md, named in each section. Then the witnesses: for each statement
with hypotheses, states and operands that meet them, at the boundary values of their ranges. -/

namespace Sys2Proof.Tests

open Sys2Proof.Machine

/-- The state with these bytes at its `pc`. -/
def placed (s : State) (bytes : List Byte) : State :=
  { s with mem := s.mem.writeBytes s.pc bytes }

/-- The state after reset with `pc` moved. -/
def atPc (pc : Nat) : State :=
  { State.reset with pc := pc }

/-- A register set by its number. -/
def withX (s : State) (i : Fin 8) (v : Byte) : State :=
  { s with x := s.x.set i v }

/-- Does the answer give a next state with this property? -/
def nextIs (r : Result) (p : State → Bool) : Bool :=
  match r with
  | .next t => p t
  | .fault _ => false
  | .refused _ => false

/-! ### WellFormed: each register operand is checked, and an ill-formed term is refused -/

theorem test_wellFormed_refuses_first_operand :
    [Instr.ldi 8 0, .prn 8, .add 8 0, .mul 8 0, .cmp 8 0, .push 8, .pop 8, .jmp 8, .jeq 255, .jne 8].all
      (fun i => !i.wellFormed) = true := by decide

theorem test_wellFormed_refuses_second_operand :
    [Instr.add 0 8, .mul 7 255, .cmp 0 8].all (fun i => !i.wellFormed) = true := by decide

theorem test_wellFormed_accepts :
    [Instr.ldi 7 255, .prn 7, .add 7 7, .mul 0 7, .cmp 7 0, .push 7, .pop 7, .jmp 0, .jeq 7, .jne 7,
      .hlt].all Instr.wellFormed = true := by decide

/-! ### Decoding: words written out from R52 and R53 -/

theorem test_decode_ldi : decode [0b10000010, 0b00000111, 0b11111110] = .instr (.ldi 7 254) := by decide
theorem test_decode_prn : decode [0b01000111, 0b00000011] = .instr (.prn 3) := by decide
theorem test_decode_add : decode [0b10100000, 0b00000001, 0b00000010] = .instr (.add 1 2) := by decide
theorem test_decode_mul : decode [0b10100010, 0b00000101, 0b00000110] = .instr (.mul 5 6) := by decide
theorem test_decode_cmp : decode [0b10100111, 0b00000100, 0b00000000] = .instr (.cmp 4 0) := by decide
theorem test_decode_push : decode [0b01000101, 0b00000110] = .instr (.push 6) := by decide
theorem test_decode_pop : decode [0b01000110, 0b00000010] = .instr (.pop 2) := by decide
theorem test_decode_jmp : decode [0b01010100, 0b00000001] = .instr (.jmp 1) := by decide
theorem test_decode_jeq : decode [0b01010101, 0b00001100] = .instr (.jeq 12) := by decide
theorem test_decode_jne : decode [0b01010110, 0b00000111] = .instr (.jne 7) := by decide
theorem test_decode_hlt : decode [0b00000001, 0b11111111] = .instr .hlt := by decide

/-- R57, L2.6 row 2: bytes outside the map. -/
theorem test_decode_invalid :
    decode [0x00] = .invalidOpcode 0x00 ∧ decode [0x02] = .invalidOpcode 0x02 ∧
    decode [0x11, 0] = .invalidOpcode 0x11 ∧ decode [0x50, 0] = .invalidOpcode 0x50 ∧
    decode [0xFF] = .invalidOpcode 0xFF := by decide

/-- R67: a missing operand byte, by its offset. -/
theorem test_decode_missing :
    decode [] = .missingByte 0 ∧ decode [0x47] = .missingByte 1 ∧ decode [0x82] = .missingByte 1 ∧
    decode [0x82, 0] = .missingByte 2 := by decide

theorem test_decodeTableWord :
    decodeTableWord 24 0x0803A0 = some (.add 3 8) ∧ decodeTableWord 8 0xFF45 = some (.push 0) ∧
    decodeTableWord 8 0x00 = none := by decide

/-! ### One step per instruction (95_test_vectors.md L2.1 to L2.6) -/

/-- L2.1 row 2. -/
theorem test_ldi_r7 : nextIs (step (placed (atPc 0) [0x82, 7, 0xFF]))
    (fun t => t.x[7] = 255 ∧ t.sp = 0 ∧ t.pc = 3) = true := by decide

/-- L2.1 row 5: the last byte is cell 255. -/
theorem test_ldi_top : nextIs (step (placed (atPc 253) [0x82, 0, 5]))
    (fun t => t.x[0] = 5 ∧ t.pc = 256 ∧ t.run = .running) = true := by decide

/-- L2.1 row 7. -/
theorem test_prn : nextIs (step (placed (withX (atPc 9) 0 72) [0x47, 0]))
    (fun t => t.out = [.print 72] ∧ t.pc = 11) = true := by decide

/-- L2.2 row 2. -/
theorem test_add_wraps : nextIs (step (placed (withX (withX (atPc 0) 0 200) 1 100) [0xA0, 0, 1]))
    (fun t => t.x[0] = 44 ∧ t.x[1] = 100 ∧ t.pc = 3) = true := by decide

/-- L2.2 row 5: one register as both operands. -/
theorem test_add_same : nextIs (step (placed (withX (atPc 0) 2 128) [0xA0, 2, 2]))
    (fun t => t.x[2] = 0 ∧ t.fl = .none) = true := by decide

/-- L2.2 row 10. -/
theorem test_mul_wraps : nextIs (step (placed (withX (withX (atPc 0) 0 255) 1 255) [0xA2, 0, 1]))
    (fun t => t.x[0] = 1 ∧ t.x[1] = 255 ∧ t.pc = 3) = true := by decide

/-- L2.2 row 11. -/
theorem test_mul : nextIs (step (placed (withX (withX (atPc 0) 0 15) 1 17) [0xA2, 0, 1]))
    (fun t => t.x[0] = 255) = true := by decide

/-- L2.3 row 5: unsigned. -/
theorem test_cmp_unsigned : nextIs (step (placed (withX (atPc 0) 0 255) [0xA7, 0, 1]))
    (fun t => t.fl = .greaterThan ∧ t.x[0] = 255 ∧ t.pc = 3) = true := by decide

/-- L2.3 row 8: the previous state does not survive. -/
theorem test_cmp_replaces : nextIs
    (step (placed { withX (withX (atPc 0) 0 1) 1 2 with fl := .equal } [0xA7, 0, 1]))
    (fun t => t.fl = .lessThan) = true := by decide

/-- L2.4 row 1: the first PUSH after reset. -/
theorem test_push_first : nextIs (step (placed (withX (atPc 0) 0 42) [0x45, 0]))
    (fun t => t.mem.read 0 = 42 ∧ t.sp = 255 ∧ t.pc = 2) = true := by decide

/-- L2.4 row 6: `x[7]` is not `sp`. -/
theorem test_push_r7 : nextIs (step (placed { withX (atPc 100) 7 99 with sp := 10 } [0x45, 7]))
    (fun t => t.mem.read 10 = 99 ∧ t.sp = 9 ∧ t.x[7] = 99) = true := by decide

/-- L2.4 row 4: `sp` wraps to 0. -/
theorem test_pop_wraps : nextIs
    (step (placed { atPc 100 with sp := 255, mem := [(0, 42)] } [0x46, 3]))
    (fun t => t.x[3] = 42 ∧ t.sp = 0 ∧ t.mem.read 0 = 42 ∧ t.pc = 102) = true := by decide

/-- L2.4 row 7: POP R7 loads `x[7]`, not `sp`. -/
theorem test_pop_r7 : nextIs (step (placed { atPc 100 with sp := 9, mem := [(10, 99)] } [0x46, 7]))
    (fun t => t.x[7] = 99 ∧ t.sp = 10) = true := by decide

/-- L2.5 row 1. -/
theorem test_jmp : nextIs (step (placed (withX (atPc 12) 2 17) [0x54, 2]))
    (fun t => t.pc = 17) = true := by decide

/-- L2.5 row 3. -/
theorem test_jeq_taken : nextIs (step (placed { withX (atPc 12) 2 17 with fl := .equal } [0x55, 2]))
    (fun t => t.pc = 17 ∧ t.fl = .equal) = true := by decide

/-- L2.5 row 6. -/
theorem test_jeq_not_taken : nextIs (step (placed (withX (atPc 12) 2 17) [0x55, 2]))
    (fun t => t.pc = 14) = true := by decide

/-- L2.5 row 7. -/
theorem test_jne_not_taken : nextIs (step (placed { withX (atPc 12) 3 9 with fl := .equal } [0x56, 3]))
    (fun t => t.pc = 14) = true := by decide

/-- L2.5 row 10. -/
theorem test_jne_taken_before_cmp : nextIs (step (placed (withX (atPc 12) 3 9) [0x56, 3]))
    (fun t => t.pc = 9) = true := by decide

/-- L2.5 row 13: HLT at 255 reads no operand. -/
theorem test_hlt_top : nextIs (step (placed (atPc 255) [0x01]))
    (fun t => t.run = .halted ∧ t.pc = 255 ∧ t.out = [] ∧ t.exitStatus = some 0) = true := by decide

/-! ### Fatal conditions and stops (L2.1 rows 4, 6 and 10, L2.2 row 16, L2.5 row 11, L2.6) -/

/-- The record, its diagnostic and `run` after a fatal step, `pc` unchanged. -/
def fatalWith (r : FaultRecord) (t : State) : Bool :=
  t.fault = some r ∧ t.out = [.diagnostic r] ∧ t.run = .faulted ∧ t.pc = r.pc ∧ t.exitStatus = some 1

theorem test_fatal_register : nextIs (step (placed (atPc 0) [0x82, 8, 1]))
    (fatalWith ⟨.invalidRegister, 0, 8⟩) = true := by decide

theorem test_fatal_operand_b : nextIs (step (placed (atPc 254) [0x82, 0]))
    (fatalWith ⟨.memoryOutOfRange, 254, 256⟩) = true := by decide

theorem test_fatal_operand_a : nextIs (step (placed (atPc 255) [0x47]))
    (fatalWith ⟨.memoryOutOfRange, 255, 256⟩) = true := by decide

theorem test_fatal_register_a_first : nextIs (step (placed (atPc 0) [0xA2, 0x0A, 0x0B]))
    (fatalWith ⟨.invalidRegister, 0, 10⟩) = true := by decide

theorem test_fatal_jump_not_taken : nextIs (step (placed { atPc 12 with fl := .lessThan } [0x55, 0x0C]))
    (fatalWith ⟨.invalidRegister, 12, 12⟩) = true := by decide

theorem test_fatal_opcode : nextIs (step (atPc 0)) (fatalWith ⟨.invalidInstruction, 0, 0⟩) = true := by
  decide

theorem test_fatal_fetch : nextIs (step (atPc 256)) (fatalWith ⟨.memoryOutOfRange, 256, 256⟩) = true := by
  decide

theorem test_no_step_when_halted : step { atPc 0 with run := .halted } = .fault .haltedTakesNoStep := rfl

theorem test_no_step_when_faulted :
    step { atPc 0 with run := .faulted } = .fault .faultedTakesNoStep := rfl

/-! ### Host's side: R77, R109, R61, and the placing of a table word -/

theorem test_printLine : printLine 0 = ['0', '\n'] ∧ printLine 72 = ['7', '2', '\n'] ∧
    printLine 255 = ['2', '5', '5', '\n'] := by decide

theorem test_load_refuses : (loadProgram [0x82, 256]).isNone = true ∧
    (loadProgram [0x82, 255]).isSome = true := by decide

theorem test_assemblyLine : assemblyLine (.ldi 0 8) = ['L', 'D', 'I', ' ', 'R', '0', ',', ' ', '8'] := by
  decide

theorem test_withFetchWord : nextIs (step (State.reset.withFetchWord 24 0x050382))
    (fun t => t.x[3] = 5 ∧ t.pc = 3) = true := by decide

/-! ### Witnesses: the hypotheses of each statement are met -/

theorem witness_UnknownOpcodeIsFatal :
    (atPc 255).run = .running ∧ (atPc 255).pc < 256 ∧ (atPc 255).opcodeByte ∉ opcodeBytes := by decide

theorem witness_StepRunsDecodedInstruction :
    (placed (atPc 253) [0x82, 7, 255]).run = .running ∧
    (placed (atPc 253) [0x82, 7, 255]).HoldsBytes (encode (.ldi 7 255)) := by decide

theorem witness_StepEqualsSpecPseudocode : (atPc 256).run = .running := rfl

theorem witness_FirstFatal_fetch : (atPc 256).run = .running ∧ 256 ≤ (atPc 256).pc := by decide
theorem witness_FirstFatal_opcode :
    (atPc 255).run = .running ∧ (atPc 255).pc < 256 ∧ (atPc 255).opcodeByte ∉ opcodeBytes := by decide
theorem witness_FirstFatal_operand_a :
    (placed (atPc 255) [0x82]).run = .running ∧ (placed (atPc 255) [0x82]).pc = 255 ∧
    (placed (atPc 255) [0x82]).opcodeByte ∈ operandOpcodes := by decide
theorem witness_FirstFatal_operand_b :
    (placed (atPc 254) [0x82, 9]).run = .running ∧ (placed (atPc 254) [0x82, 9]).pc = 254 ∧
    (placed (atPc 254) [0x82, 9]).opcodeByte ∈ twoOperandOpcodes := by decide
theorem witness_FirstFatal_register_a :
    (placed (atPc 254) [0x47, 8]).run = .running ∧
    ((placed (atPc 254) [0x47, 8]).pc = 254 ∧
      (placed (atPc 254) [0x47, 8]).opcodeByte ∉ twoOperandOpcodes) ∧
    (placed (atPc 254) [0x47, 8]).opcodeByte ∈ operandOpcodes ∧
    8 ≤ ((placed (atPc 254) [0x47, 8]).mem.read 255).toNat := by decide
theorem witness_FirstFatal_register_a_of_two :
    (placed (atPc 253) [0xA0, 8, 8]).run = .running ∧ (placed (atPc 253) [0xA0, 8, 8]).pc < 254 ∧
    (placed (atPc 253) [0xA0, 8, 8]).opcodeByte ∈ operandOpcodes ∧
    8 ≤ ((placed (atPc 253) [0xA0, 8, 8]).mem.read 254).toNat := by decide
theorem witness_FirstFatal_register_b :
    (placed (atPc 253) [0xA7, 7, 8]).run = .running ∧ (placed (atPc 253) [0xA7, 7, 8]).pc < 254 ∧
    (placed (atPc 253) [0xA7, 7, 8]).opcodeByte ∈ twoRegisterOpcodes ∧
    ((placed (atPc 253) [0xA7, 7, 8]).mem.read 254).toNat < 8 ∧
    8 ≤ ((placed (atPc 253) [0xA7, 7, 8]).mem.read 255).toNat := by decide
theorem witness_FirstFatal_hlt :
    (placed (atPc 255) [0x01]).run = .running ∧ (placed (atPc 255) [0x01]).pc < 256 ∧
    (placed (atPc 255) [0x01]).opcodeByte = 1 := by decide

theorem witness_FatalStepIsPrecise : ∃ t, step (atPc 256) = .next t ∧ t.run = .faulted := ⟨_, rfl, rfl⟩

theorem witness_FetchAdvanceLaw :
    (7 : Byte).toNat < 8 ∧ (atPc 0).fl ≠ .equal ∧ ({ atPc 0 with fl := .equal } : State).fl = .equal := by
  decide

theorem witness_PcStaysInRange : ∃ t, step (placed (atPc 253) [0x82, 7, 255]) = .next t ∧
    t.run = .running ∧ t.pc = 256 := ⟨_, rfl, rfl, rfl⟩
theorem witness_PcStaysInRange_end : (atPc 256).run = .running ∧ (atPc 256).pc = 256 := ⟨rfl, rfl⟩

theorem witness_RunEnds_hlt : ∃ t, step (placed (atPc 255) [0x01]) = .next t ∧ t.run ≠ .running :=
  ⟨_, rfl, by decide⟩
theorem witness_RunEnds_fatal : ∃ t, step (atPc 256) = .next t ∧ t.run ≠ .running :=
  ⟨_, rfl, by decide⟩

theorem witness_JumpToItself :
    (7 : Byte).toNat < 8 ∧ (placed (withX (atPc 254) 7 254) [0x54, 7]).run = .running ∧
    (placed (withX (atPc 254) 7 254) [0x54, 7]).HoldsBytes [0x54, 7] ∧
    (placed (withX (atPc 254) 7 254) [0x54, 7]).x[7].toNat =
      (placed (withX (atPc 254) 7 254) [0x54, 7]).pc := by decide

theorem witness_StepKeepsInvariant : (placed (atPc 253) [0x82, 7, 255]).Inv ∧
    ∃ t, step (placed (atPc 253) [0x82, 7, 255]) = .next t :=
  ⟨⟨by decide, by decide, ⟨rfl, rfl⟩⟩, _, rfl⟩

theorem witness_LoadedProgram : ∃ s, loadProgram [0x82, 0, 255] = some s := ⟨_, rfl⟩
theorem witness_LoadPlacesTheProgram :
    0 < [0x82, 0, 255].length ∧ [0x82, 0, 255].length ≤ 3 ∧
    ∃ s, loadProgram [0x82, 0, 255] = some s := ⟨by decide, by decide, _, rfl⟩
theorem witness_FirstStepRunsTheProgramsStart :
    ∃ s, loadProgram ((encode (.add 7 0) ++ [0x01]).map BitVec.toNat) = some s := ⟨_, rfl⟩

/-- Register operands at both ends of the range the rules of the instructions split it into. -/
theorem witness_rules_operands :
    (7 : Byte).toNat < 8 ∧ (0 : Byte).toNat < 8 ∧ 8 ≤ (8 : Byte).toNat ∧ 8 ≤ (255 : Byte).toNat := by
  decide

theorem witness_LdiRule : (placed (atPc 253) [0x82, 7, 255]).run = .running ∧
    (placed (atPc 253) [0x82, 7, 255]).HoldsBytes [0x82, 7, 255] ∧
    (placed (atPc 254) [0x82]).run = .running ∧ (placed (atPc 254) [0x82]).CutOff 0x82 2 := by decide
theorem witness_PrnRule : (placed (atPc 254) [0x47, 7]).run = .running ∧
    (placed (atPc 254) [0x47, 7]).HoldsBytes [0x47, 7] ∧
    (placed (atPc 255) [0x47]).run = .running ∧ (placed (atPc 255) [0x47]).CutOff 0x47 1 := by decide
theorem witness_AddRule : (placed (atPc 253) [0xA0, 7, 0]).run = .running ∧
    (placed (atPc 253) [0xA0, 7, 0]).HoldsBytes [0xA0, 7, 0] ∧
    (placed (atPc 254) [0xA0]).run = .running ∧ (placed (atPc 254) [0xA0]).CutOff 0xA0 2 := by decide
theorem witness_MulRule : (placed (atPc 253) [0xA2, 7, 0]).run = .running ∧
    (placed (atPc 253) [0xA2, 7, 0]).HoldsBytes [0xA2, 7, 0] ∧
    (placed (atPc 255) [0xA2]).run = .running ∧ (placed (atPc 255) [0xA2]).CutOff 0xA2 2 := by decide
theorem witness_CmpRule : (placed (atPc 253) [0xA7, 7, 0]).run = .running ∧
    (placed (atPc 253) [0xA7, 7, 0]).HoldsBytes [0xA7, 7, 0] ∧
    (placed (atPc 254) [0xA7]).run = .running ∧ (placed (atPc 254) [0xA7]).CutOff 0xA7 2 := by decide
theorem witness_PushRule : (placed (atPc 254) [0x45, 7]).run = .running ∧
    (placed (atPc 254) [0x45, 7]).HoldsBytes [0x45, 7] ∧
    (placed (atPc 255) [0x45]).run = .running ∧ (placed (atPc 255) [0x45]).CutOff 0x45 1 := by decide
theorem witness_PopRule : (placed (atPc 254) [0x46, 7]).run = .running ∧
    (placed (atPc 254) [0x46, 7]).HoldsBytes [0x46, 7] ∧
    (placed (atPc 255) [0x46]).run = .running ∧ (placed (atPc 255) [0x46]).CutOff 0x46 1 := by decide
theorem witness_JmpRule : (placed (atPc 254) [0x54, 7]).run = .running ∧
    (placed (atPc 254) [0x54, 7]).HoldsBytes [0x54, 7] ∧
    (placed (atPc 255) [0x54]).run = .running ∧ (placed (atPc 255) [0x54]).CutOff 0x54 1 := by decide
theorem witness_JeqRule : (placed (atPc 254) [0x55, 7]).run = .running ∧
    (placed (atPc 254) [0x55, 7]).HoldsBytes [0x55, 7] ∧
    (placed (atPc 255) [0x55]).run = .running ∧ (placed (atPc 255) [0x55]).CutOff 0x55 1 ∧
    (atPc 254).fl ≠ .equal ∧ ({ atPc 254 with fl := .equal } : State).fl = .equal := by decide
theorem witness_JneRule : (placed (atPc 254) [0x56, 7]).run = .running ∧
    (placed (atPc 254) [0x56, 7]).HoldsBytes [0x56, 7] ∧
    (placed (atPc 255) [0x56]).run = .running ∧ (placed (atPc 255) [0x56]).CutOff 0x56 1 ∧
    (atPc 254).fl ≠ .equal ∧ ({ atPc 254 with fl := .equal } : State).fl = .equal := by decide
theorem witness_HltRule : (placed (atPc 255) [0x01]).run = .running ∧
    (placed (atPc 255) [0x01]).pc < 256 ∧ (placed (atPc 255) [0x01]).mem.read 255 = 0x01 := by decide

theorem witness_WellFormedComplete : (Instr.add 7 7).wellFormed = true ∧ Instr.hlt.wellFormed = true := by
  decide
theorem witness_IllFormed :
    (Instr.add 7 8).registerOperands.find? (fun r => decide (8 ≤ r.toNat)) = some 8 ∧
    (Instr.ldi 255 0).registerOperands.find? (fun r => decide (8 ≤ r.toNat)) = some 255 := by decide

theorem witness_RegisterResultFrame : ∀ i ∈ [Instr.ldi 7 255, .add 7 0, .mul 7 0],
    i.wellFormed = true ∧ ∃ t, exec i (atPc 0) = .next t := by
  simp only [List.forall_mem_cons, List.not_mem_nil, false_imp_iff, implies_true, and_true]
  exact ⟨⟨rfl, _, rfl⟩, ⟨rfl, _, rfl⟩, ⟨rfl, _, rfl⟩⟩
theorem witness_NoRegisterResultFrame :
    ∀ i ∈ [Instr.prn 7, .cmp 7 0, .jmp 7, .jeq 7, .jne 7, .hlt],
      i.wellFormed = true ∧ ∃ t, exec i (atPc 0) = .next t := by
  simp only [List.forall_mem_cons, List.not_mem_nil, false_imp_iff, implies_true, and_true]
  exact ⟨⟨rfl, _, rfl⟩, ⟨rfl, _, rfl⟩, ⟨rfl, _, rfl⟩, ⟨rfl, _, rfl⟩, ⟨rfl, _, rfl⟩, ⟨rfl, _, rfl⟩⟩
theorem witness_PushFrame : (Instr.push 7).wellFormed = true ∧
    ∃ t, exec (.push 7) (withX (atPc 0) 7 1) = .next t := ⟨rfl, _, rfl⟩
theorem witness_PopFrame : (Instr.pop 7).wellFormed = true ∧
    ∃ t, exec (.pop 7) { atPc 0 with sp := 255 } = .next t := ⟨rfl, _, rfl⟩

theorem witness_FlagWritten : ∃ t, step (placed (atPc 0) [0xA7, 7, 0]) = .next t ∧ t.fl ≠ (atPc 0).fl :=
  ⟨_, rfl, by decide⟩
theorem witness_FlagRead :
    (placed (atPc 0) [0xA7, 7, 0]).mem.read 0 ≠ 0x55 ∧ (placed (atPc 0) [0xA7, 7, 0]).mem.read 0 ≠ 0x56 ∧
    (placed (atPc 0) [0xA7, 7, 0]).mem.read 0 = 0xA7 ∧
    (∃ t, step (placed (atPc 0) [0xA7, 7, 0]) = .next t ∧ t.run = .running) ∧
    ∃ u, step { placed (atPc 0) [0xA7, 7, 0] with fl := .equal } = .next u :=
  ⟨by decide, by decide, by decide, ⟨_, rfl, rfl⟩, _, rfl⟩

theorem witness_StackPointer_changed : ∃ t, step (placed (atPc 0) [0x45, 7]) = .next t ∧
    t.sp ≠ (atPc 0).sp := ⟨_, rfl, by decide⟩
theorem witness_StackPointer_register7 : ∃ t, step (placed (atPc 0) [0x82, 7, 255]) = .next t ∧
    t.x[7] ≠ (atPc 0).x[7] := ⟨_, rfl, by decide⟩
theorem witness_StackPointer_same : (∃ t, step (placed (atPc 0) [0x45, 7]) = .next t) ∧
    ∃ u, step { placed (atPc 0) [0x45, 7] with x := (atPc 0).x.set 7 255 } = .next u :=
  ⟨⟨_, rfl⟩, _, rfl⟩

/-- POP R7 at the top of memory, with `sp` at 255, so that it wraps and pops cell 0. -/
theorem witness_StackPointer_pop : (7 : Byte).toNat < 8 ∧
    (placed { atPc 254 with sp := 255, mem := [(0, 99)] } [0x46, 7]).run = .running ∧
    (placed { atPc 254 with sp := 255, mem := [(0, 99)] } [0x46, 7]).HoldsBytes [0x46, 7] := by decide

theorem witness_RegistersWritten : ∃ t, step (placed (atPc 253) [0x82, 7, 255]) = .next t ∧
    t.x[(7 : Fin 8)] ≠ (atPc 253).x[(7 : Fin 8)] := ⟨_, rfl, by decide⟩
theorem witness_MemoryWritten : ∃ t,
    step (placed { withX (atPc 0) 7 1 with sp := 255 } [0x45, 7]) = .next t ∧
    t.mem.read 255 ≠ (placed { withX (atPc 0) 7 1 with sp := 255 } [0x45, 7]).mem.read 255 :=
  ⟨_, rfl, by decide⟩

theorem witness_Events_fatal : ∃ t r, step (atPc 256) = .next t ∧ t.run = .faulted ∧ t.fault = some r :=
  ⟨_, _, rfl, rfl, rfl⟩
theorem witness_Events_prn : (placed (atPc 254) [0x47, 7]).HoldsBytes [0x47, BitVec.ofNat 8 (7 : Fin 8).val] ∧
    ∃ t, step (placed (atPc 254) [0x47, 7]) = .next t ∧ t.run ≠ .faulted := ⟨by decide, _, rfl, by decide⟩
theorem witness_Events_other : ∃ t, step (placed (atPc 255) [0x01]) = .next t ∧ t.run ≠ .faulted ∧
    (placed (atPc 255) [0x01]).mem.read 255 ≠ 0x47 := ⟨_, rfl, by decide, by decide⟩

theorem witness_StackPlacement : (atPc 0).sp = 0 ∧
    (∀ r ∈ List.replicate 256 (7 : Byte), r.toNat < 8) ∧ (List.replicate 256 (7 : Byte)).length ≤ 256 :=
  ⟨rfl, fun r h => by rw [List.eq_of_mem_replicate h]; decide, by rw [List.length_replicate]⟩

/-- `PUSH R7` at 253, with `sp` at the next instruction's address, pushing HLT and pushing 0x00. -/
theorem witness_PushedByte :
    (placed { withX (atPc 253) 7 0x01 with sp := 255 } [0x45, 7]).run = .running ∧
    (placed { withX (atPc 253) 7 0x01 with sp := 255 } [0x45, 7]).HoldsBytes [0x45, 7] ∧
    (placed { withX (atPc 253) 7 0x01 with sp := 255 } [0x45, 7]).sp.toNat = 253 + 2 ∧
    (withX (atPc 253) 7 0x01).x[7] = 0x01 ∧ (withX (atPc 253) 7 0x00).x[7].toNat ∉ opcodeBytes := by
  decide

theorem witness_CanonicalMemories : Memory.wf [(0, 1), (255, 255)] ∧
    ∀ addr, Memory.read [(0, 1), (255, 255)] addr = Memory.read [(0, 1), (255, 255)] addr :=
  ⟨by decide, fun _ => rfl⟩

theorem witness_ExitStatus : (atPc 0).run = .running ∧
    ({ atPc 0 with run := .halted } : State).run = .halted ∧
    ({ atPc 0 with run := .faulted } : State).run = .faulted := ⟨rfl, rfl, rfl⟩

theorem witness_HostSees_halted : ({ atPc 256 with run := .halted, out := [.print 255] } : State).Inv :=
  ⟨by decide, by decide, ⟨rfl, rfl⟩⟩
theorem witness_HostSees_faulted :
    ({ atPc 256 with
      run := .faulted
      fault := some ⟨.memoryOutOfRange, 256, 256⟩
      out := [.print 255, .diagnostic ⟨.memoryOutOfRange, 256, 256⟩] } : State).Inv :=
  ⟨by decide, by decide, ⟨_, rfl, rfl, by simp [FaultRecord.legal], rfl, rfl⟩⟩

end Sys2Proof.Tests
end

section
/-! What an instruction that completes leaves as it was, and how an instruction fails. -/

namespace Sys2Proof.Machine

/-! ### Fetch and register check -/

/-- The opcode byte of a fetched instruction stands at `pc`. -/
theorem State.read_pc_of_fetch {s : State} {i : Instr} (h : s.fetch = .instr i) :
    s.mem.read s.pc = i.opcode :=
  ((s.fetch_eq_instr_iff i).1 h 0 (Nat.succ_pos _)).2

/-- An instruction is well formed unless one of its register bytes names no register. -/
theorem wellFormed_or_bad_register (i : Instr) :
    i.wellFormed = true ∨
      ∃ r, i.registerOperands.find? (fun r => decide (8 ≤ r.toNat)) = some r := by
  cases h : i.registerOperands.find? (fun r => decide (8 ≤ r.toNat)) with
  | some r => exact .inr ⟨r, rfl⟩
  | none =>
    refine .inl (List.all_eq_true.2 fun r hr => ?_)
    simpa using List.find?_eq_none.1 h r hr

/-- The first register byte that names no register is raised, whatever the state (R68, R97). -/
theorem exec_of_bad_register {i : Instr} {r : Byte}
    (h : i.registerOperands.find? (fun r => decide (8 ≤ r.toNat)) = some r) (s : State) :
    exec i s = .next (s.raiseFatal .invalidRegister r.toNat) := by
  have one {a : Byte} (h : [a].find? (fun r => decide (8 ≤ r.toNat)) = some r)
      (k : Fin 8 → Result) : s.withReg a k = .next (s.raiseFatal .invalidRegister r.toNat) := by
    obtain ⟨ha, rfl⟩ : 8 ≤ a.toNat ∧ a = r := by simpa [List.find?_singleton] using h
    exact s.withReg_of_ge ha k
  have two {a b : Byte} (h : [a, b].find? (fun r => decide (8 ≤ r.toNat)) = some r)
      (k : Fin 8 → Fin 8 → Result) :
      s.withRegs a b k = .next (s.raiseFatal .invalidRegister r.toNat) := by
    by_cases ha : 8 ≤ a.toNat
    · obtain rfl : a = r := by simpa [ha] using h
      exact s.withRegs_of_first_ge ha b k
    · rw [List.find?_cons_of_neg (by simpa using ha)] at h
      rw [State.withRegs, s.withReg_of_lt (Nat.lt_of_not_le ha), one h]
  cases i with
  | ldi a b => exact one h _
  | prn a => exact one h _
  | add a b => exact two h _
  | mul a b => exact two h _
  | cmp a b => exact two h _
  | push a => exact one h _
  | pop a => exact one h _
  | jmp a => exact one h _
  | jeq a => exact one h _
  | jne a => exact one h _
  | hlt => cases h

/-- A step raises a fatal condition, or it completes the well-formed instruction it fetched. -/
theorem step_raises_or_completes {s t : State} (h : step s = .next t) :
    (∃ kind info, t = s.raiseFatal kind info) ∨
      ∃ i, s.fetch = .instr i ∧ i.wellFormed = true ∧ exec i s = .next t := by
  obtain ⟨-, ⟨kind, info, -, ht⟩ | ⟨i, hf, he⟩⟩ := step_cases h
  · exact .inl ⟨kind, info, ht⟩
  · rcases wellFormed_or_bad_register i with hw | ⟨r, hr⟩
    · exact .inr ⟨i, hf, hw, he⟩
    · cases he.symm.trans (exec_of_bad_register hr s)
      exact .inl ⟨_, _, rfl⟩

/-! ### The frame of a completed instruction -/

/-- Each piece of state is as before unless the instruction is one that writes it. -/
structure CompletionFrame (i : Instr) (s t : State) : Prop where
  x : i.opcode ∉ [(0x82 : Byte), 0xA0, 0xA2, 0x46] → t.x = s.x
  sp : i.opcode ∉ [(0x45 : Byte), 0x46] → t.sp = s.sp
  fl : i.opcode ≠ 0xA7 → t.fl = s.fl
  run : t.run = if i = .hlt then .halted else s.run
  fault : t.fault = s.fault
  mem : i.opcode ≠ 0x45 → t.mem = s.mem
  out : i.opcode ≠ 0x47 → t.out = s.out

/-- A well-formed instruction completes within its frame. -/
theorem completionFrame_of_wellFormed {i : Instr} (hw : i.wellFormed = true) {s t : State}
    (he : exec i s = .next t) : CompletionFrame i s t := by
  have spec := exec_of_wellFormed hw s
  cases i with
  | ldi | prn | push | pop | jmp =>
    obtain ⟨_, h⟩ := spec
    cases he.symm.trans h
    constructor <;> simp [Instr.opcode]
  | add | mul | cmp =>
    obtain ⟨_, _, h⟩ := spec
    cases he.symm.trans h
    constructor <;> simp [Instr.opcode, State.aluApply]
  | jeq | jne =>
    obtain ⟨_, h⟩ := spec
    cases he.symm.trans h
    cases s.flagIsEqual <;> constructor <;> simp [Instr.opcode]
  | hlt =>
    cases he.symm.trans spec
    constructor <;> simp [Instr.opcode]

/-- A step that does not leave FAULTED completed a well-formed instruction. -/
theorem completes_of_not_faulted {s t : State} (h : step s = .next t) (ht : t.run ≠ .faulted) :
    ∃ i, s.fetch = .instr i ∧ i.wellFormed = true ∧ exec i s = .next t := by
  obtain ⟨kind, info, rfl⟩ | hc := step_raises_or_completes h
  · exact absurd rfl ht
  · exact hc

/-- A step that leaves FAULTED raised a fatal condition. -/
theorem raises_of_faulted {s t : State} (h : step s = .next t) (ht : t.run = .faulted) :
    ∃ kind info, t = s.raiseFatal kind info := by
  obtain hr | ⟨i, -, hw, he⟩ := step_raises_or_completes h
  · exact hr
  · have hrun := (completionFrame_of_wellFormed hw he).run
    rw [(step_cases h).1, ht] at hrun
    split at hrun <;> cases hrun

/-- PRN emits its register's value. -/
theorem exec_prn_out {s t : State} {a : Byte} (ha : a.toNat < 8) (he : exec (.prn a) s = .next t) :
    t.out = s.out ++ [.print s.x[a.toNat]] := by
  have hw : (Instr.prn a).wellFormed = true := by simpa [Instr.wellFormed, Instr.registerOperands]
  obtain ⟨_, h⟩ := exec_of_wellFormed hw s
  cases he.symm.trans h
  rfl

/-! ### The flag is read by JEQ and JNE alone -/

/-- From a state with another `fl`, an instruction other than JEQ and JNE leaves the same state but for
`fl`, and the same `fl` too if it is a CMP that completes. -/
theorem exec_setFl {i : Instr} (hjeq : i.opcode ≠ 0x55) (hjne : i.opcode ≠ 0x56) {s t : State}
    (he : exec i s = .next t) (f : Flag) :
    ∃ g, exec i (s.setFl f) = .next (t.setFl g) ∧
      (i.opcode = 0xA7 → t.run ≠ .faulted → g = t.fl) := by
  obtain hw | ⟨r, hr⟩ := wellFormed_or_bad_register i
  · have spec := exec_of_wellFormed hw s
    have spec' := exec_of_wellFormed hw (s.setFl f)
    cases i with
    | ldi | prn | push | pop | jmp =>
      obtain ⟨_, h⟩ := spec
      obtain ⟨_, h'⟩ := spec'
      cases he.symm.trans h
      exact ⟨f, h', by simp [Instr.opcode]⟩
    | add | mul =>
      obtain ⟨_, _, h⟩ := spec
      obtain ⟨_, _, h'⟩ := spec'
      cases he.symm.trans h
      exact ⟨f, h', by simp [Instr.opcode]⟩
    | cmp =>
      obtain ⟨_, _, h⟩ := spec
      obtain ⟨_, _, h'⟩ := spec'
      cases he.symm.trans h
      exact ⟨_, h', fun _ _ => rfl⟩
    | jeq => exact absurd rfl hjeq
    | jne => exact absurd rfl hjne
    | hlt =>
      cases he.symm.trans spec
      exact ⟨f, spec', by simp [Instr.opcode]⟩
  · cases he.symm.trans (exec_of_bad_register hr s)
    exact ⟨f, exec_of_bad_register hr (s.setFl f), fun _ h => absurd rfl h⟩

end Sys2Proof.Machine

namespace Sys2Proof.Proofs

open Sys2Proof.Machine

/-! ### The state's own rules -/

/-- Settles O16: each register of the reset state is a literal 0 (R107). -/
theorem resetRegistersAreZero : Obligations.ResetRegistersAreZero := by
  have hx (i : Fin 8) : State.reset.x[i] = 0 := Vector.getElem_replicate i.isLt
  exact ⟨hx, rfl, (hx 7).symm, rfl⟩

/-- R25, the writer: a step at another byte than CMP's keeps `fl`. -/
theorem step_fl_of_ne_cmp {s t : State} (h : step s = .next t) (hne : s.mem.read s.pc ≠ 0xA7) :
    t.fl = s.fl := by
  obtain ⟨kind, info, rfl⟩ | ⟨i, hf, hw, he⟩ := step_raises_or_completes h
  · rfl
  · rw [State.read_pc_of_fetch hf] at hne
    exact (completionFrame_of_wellFormed hw he).fl hne

/-- R25, the readers: at another byte than JEQ's and JNE's, a step from a state with another `fl` leaves
the same state but for `fl`, and the same `fl` too if a CMP completed. -/
theorem step_setFl {s t : State} (hjeq : s.mem.read s.pc ≠ 0x55) (hjne : s.mem.read s.pc ≠ 0x56)
    (h : step s = .next t) (f : Flag) :
    ∃ g, step (s.setFl f) = .next (t.setFl g) ∧
      (s.mem.read s.pc = 0xA7 → t.run ≠ .faulted → g = t.fl) := by
  obtain ⟨hrun, ⟨kind, info, hf, rfl⟩ | ⟨i, hf, he⟩⟩ := step_cases h
  · exact ⟨f, step_of_fetch_fatal (s := s.setFl f) hrun hf, fun _ ht => absurd rfl ht⟩
  · rw [State.read_pc_of_fetch hf] at hjeq hjne ⊢
    rw [step_of_fetch_instr (s := s.setFl f) hrun hf]
    exact exec_setFl hjeq hjne he f

/-- Settles O37: CMP alone has `fl` outside its frame, and JEQ and JNE alone test it. -/
theorem flagWrittenByCmpReadByJumps : Obligations.FlagWrittenByCmpReadByJumps := by
  refine ⟨fun s t h hfl => ?_, fun s t u f hjeq hjne ht hu => ?_⟩
  · by_contra hne
    exact hfl (step_fl_of_ne_cmp h hne)
  · obtain ⟨g, hg, hcmp⟩ := step_setFl hjeq hjne ht f
    cases hu.symm.trans hg
    exact ⟨rfl, fun hop hrun => hcmp hop (by simp [hrun])⟩

/-- Settles O41: a step that leaves FAULTED raised its diagnostic, and any other completed an
instruction, whose frame leaves the events out for PRN alone. -/
theorem eventsComeFromPrnAndFatalSteps : Obligations.EventsComeFromPrnAndFatalSteps := by
  refine ⟨rfl, fun s t h => ⟨fun r ht hr => ?_, fun ht => ?_, fun i ht hbytes => ?_, fun ht hne => ?_⟩⟩
  · obtain ⟨kind, info, rfl⟩ := raises_of_faulted h ht
    cases hr
    rfl
  · obtain ⟨kind, info, rfl⟩ := raises_of_faulted h ht
    rfl
  · have hf : s.fetch = .instr (.prn (BitVec.ofNat 8 i.val)) := (s.fetch_eq_instr_iff _).2 hbytes
    have hi : (BitVec.ofNat 8 i.val).toNat = i.val := by
      rw [BitVec.toNat_ofNat]
      omega
    rw [step_of_fetch_instr (step_cases h).1 hf] at h
    simpa only [hi, Fin.getElem_fin] using exec_prn_out (hi.symm ▸ i.isLt) h
  · obtain ⟨i, hf, hw, he⟩ := completes_of_not_faulted h ht
    rw [State.read_pc_of_fetch hf] at hne
    exact (completionFrame_of_wellFormed hw he).out hne

end Sys2Proof.Proofs
end

section
/-! The fetch of an opcode byte outside the map. -/

namespace Sys2Proof.Machine

/-- The statements' list of opcode bytes is the code column of the model's opcode map (R53). -/
theorem opcodeBytes_eq_map_code : opcodeBytes = opcodeMap.map fun row => row.code.toNat := rfl

/-- A byte has no row in the opcode map exactly if it is none of the eleven opcode bytes. -/
theorem lookupOpcode_eq_none_iff (op : Byte) : lookupOpcode op = none ↔ op.toNat ∉ opcodeBytes := by
  rw [lookupOpcode, Option.map_eq_none_iff, List.find?_eq_none, opcodeBytes_eq_map_code]
  simp only [beq_iff_eq, List.mem_map, BitVec.toNat_inj, not_exists, not_and]

/-- The fatal step of the model is the one the statements write out (R95). -/
theorem State.raiseFatal_eq_afterFatal (s : State) (kind : FatalKind) (info : Nat) :
    s.raiseFatal kind info = s.afterFatal kind info := rfl

/-- An opcode byte outside the map is fatal at the fetch, whether or not a byte follows it (R57, R65). -/
theorem State.fetch_of_unknown_opcode {s : State} (hpc : s.pc < 256)
    (hop : s.opcodeByte ∉ opcodeBytes) : s.fetch = .fatal .invalidInstruction s.opcodeByte := by
  have hdecode : decodeWith (fun offset => s.cell? (s.pc + offset)) =
      .invalidOpcode (s.mem.read s.pc) :=
    decodeWith_of_none (s.cell?_of_lt hpc) ((lookupOpcode_eq_none_iff _).2 hop)
  simp only [fetch, hdecode]

end Sys2Proof.Machine

namespace Sys2Proof.Proofs

open Sys2Proof.Machine

/-- Settles O3: the fetch alone raises the fatal condition; the eleven bytes are a literal list. -/
theorem unknownOpcodeIsFatal : Obligations.UnknownOpcodeIsFatal := by
  refine ⟨fun s hrun hpc hop => ?_, by decide, rfl, by decide, by decide⟩
  rw [step_of_fetch_fatal hrun (State.fetch_of_unknown_opcode hpc hop),
    State.raiseFatal_eq_afterFatal]

end Sys2Proof.Proofs
end

section
/-! Where an instruction that completes leaves `pc`, and the step at a HLT byte. -/

namespace Sys2Proof.Machine

/-- `i` is no HLT and no jump that `fl` lets be taken, so R71 has it advance past its own bytes. -/
def State.advancesPast (s : State) : Instr → Prop
  | .jmp _ => False
  | .jeq _ => s.fl ≠ .equal
  | .jne _ => s.fl = .equal
  | .hlt => False
  | _ => True

theorem State.flagIsEqual_iff (s : State) : s.flagIsEqual = true ↔ s.fl = .equal := beq_iff_eq

/-- A well-formed instruction that is no HLT and no taken jump moves `pc` past its opcode and operand
bytes (R71). -/
theorem exec_pc_of_advancesPast {i : Instr} (hw : i.wellFormed = true) {s : State}
    (hadv : s.advancesPast i) :
    ∃ t, exec i s = .next t ∧ t.pc = s.pc + 1 + i.operands.length := by
  have spec := exec_of_wellFormed hw s
  cases i with
  | ldi | prn | push | pop =>
    obtain ⟨_, h⟩ := spec
    exact ⟨_, h, rfl⟩
  | add | mul | cmp =>
    obtain ⟨_, _, h⟩ := spec
    exact ⟨_, h, rfl⟩
  | jmp => exact hadv.elim
  | jeq =>
    obtain ⟨_, h⟩ := spec
    rw [if_neg (mt s.flagIsEqual_iff.1 hadv)] at h
    exact ⟨_, h, rfl⟩
  | jne =>
    obtain ⟨_, h⟩ := spec
    rw [if_pos (s.flagIsEqual_iff.2 hadv)] at h
    exact ⟨_, h, rfl⟩
  | hlt => exact hadv.elim

/-- HLT changes `run` alone (R66, R92). -/
theorem exec_hlt (s : State) : exec .hlt s = .next s.halt := exec_of_wellFormed (i := .hlt) rfl s

/-- A HLT byte inside the memory is a whole instruction: no operand byte is read (R66). -/
theorem State.fetch_of_hlt {s : State} (hpc : s.pc < 256) (hop : s.mem.read s.pc = 0x01) :
    s.fetch = .instr .hlt :=
  (s.fetch_eq_instr_iff .hlt).2 fun j hj => by
    obtain rfl : j = 0 := Nat.lt_one_iff.1 hj
    exact ⟨hpc, hop⟩

end Sys2Proof.Machine

namespace Sys2Proof.Proofs

open Sys2Proof.Machine

/-- Settles O9: each listed instruction is well formed and advances past its bytes, the conditional jumps
by their clause's premise on `fl`. -/
theorem fetchAdvanceLaw : Obligations.FetchAdvanceLaw := by
  intro s a b ha
  have one : [a].all (fun r => decide (r.toNat < 8)) = true := by simpa using ha
  refine ⟨exec_pc_of_advancesPast (i := .ldi a b) one trivial,
    exec_pc_of_advancesPast (i := .prn a) one trivial, fun hb i hi => ?_,
    exec_pc_of_advancesPast (i := .push a) one trivial,
    exec_pc_of_advancesPast (i := .pop a) one trivial,
    exec_pc_of_advancesPast (i := .jeq a) one, exec_pc_of_advancesPast (i := .jne a) one,
    ⟨_, exec_hlt s, s.halt_pc⟩⟩
  have two : [a, b].all (fun r => decide (r.toNat < 8)) = true := by simpa using ⟨ha, hb⟩
  simp only [List.mem_cons, List.not_mem_nil, or_false] at hi
  obtain rfl | rfl | rfl := hi
  · exact exec_pc_of_advancesPast (i := .add a b) two trivial
  · exact exec_pc_of_advancesPast (i := .mul a b) two trivial
  · exact exec_pc_of_advancesPast (i := .cmp a b) two trivial

/-- Settles O30: the fetch at a HLT byte needs no further byte, so the step is `exec` of HLT. -/
theorem hltEndsTheStep : Obligations.HltEndsTheStep := fun s =>
  ⟨exec_hlt s, fun hrun hpc hop =>
    (step_of_fetch_instr hrun (State.fetch_of_hlt hpc hop)).trans (exec_hlt s)⟩

end Sys2Proof.Proofs
end

section
/-! What the rules of the single instructions share: the round trip through the decoder, the step at
bytes that stand at `pc`, the cut-off instruction, and the first register byte. -/

namespace Sys2Proof

/-- An encoding decodes to its instruction (R51, R52). -/
theorem decode_encode (i : Instr) : decode (encode i) = .instr i :=
  (decodeWith_eq_instr_iff _ i).2 fun _ h => List.getElem?_eq_getElem h

/-- The first operand byte that does not exist is the one the decoder answers (R67). -/
theorem decodeWith_of_missing_operand {read : Nat → Option Byte} {op : Byte} {shape : Shape} {k : Nat}
    (h0 : read 0 = some op) (hl : lookupOpcode op = some shape) (hk : k ≤ shape.operandCount)
    (hbefore : ∀ j < k, ∃ v, read j = some v) (hnone : read k = none) :
    decodeWith read = .missingByte k := by
  have hpos : k ≠ 0 := by
    rintro rfl
    cases h0.symm.trans hnone
  have two {make : Byte → Byte → Instr} (hk : k ≤ 2)
      (hl : lookupOpcode op = some (.rr make) ∨ lookupOpcode op = some (.ri make)) :
      decodeWith read = .missingByte k := by
    rw [decodeWith_of_two h0 hl]
    obtain rfl | rfl : k = 1 ∨ k = 2 := by omega
    · exact withByte_of_none hnone _
    · obtain ⟨a, ha⟩ := hbefore 1 Nat.one_lt_two
      rw [withByte_of_some ha, withByte_of_none hnone]
  cases shape with
  | z i => exact absurd (Nat.le_zero.1 hk) hpos
  | r make =>
    obtain rfl : k = 1 := Nat.le_antisymm hk (Nat.pos_of_ne_zero hpos)
    rw [decodeWith_of_r h0 hl, withByte_of_none hnone]
  | rr make => exact two hk (.inl hl)
  | ri make => exact two hk (.inr hl)

end Sys2Proof

namespace Sys2Proof.Machine

/-- The address of a missing operand byte is always 256, the first one past the memory (R67). -/
theorem State.fetch_of_cutOff {s : State} {op : Byte} {shape : Shape}
    (hl : lookupOpcode op = some shape) (h : s.CutOff op shape.operandCount) :
    s.fetch = .fatal .memoryOutOfRange 256 := by
  obtain ⟨hpc, hop, hcut⟩ := h
  have hend : s.pc + (256 - s.pc) = 256 := by omega
  have hdecode : decodeWith (fun offset => s.cell? (s.pc + offset)) = .missingByte (256 - s.pc) :=
    decodeWith_of_missing_operand ((s.cell?_eq_some_iff _ _).2 ⟨hpc, hop⟩) hl (by omega)
      (fun j hj => ⟨_, s.cell?_of_lt (by omega)⟩) (s.cell?_of_ge hend.ge)
  simp only [fetch, hdecode, hend]

/-- A step at an opcode byte with an operand byte missing is fatal (R67). -/
theorem step_of_cutOff {s : State} (hrun : s.run = .running) {op : Byte} {shape : Shape}
    (hl : lookupOpcode op = some shape) (h : s.CutOff op shape.operandCount) :
    step s = .next (s.afterFatal .memoryOutOfRange 256) := by
  rw [step_of_fetch_fatal hrun (State.fetch_of_cutOff hl h), State.raiseFatal_eq_afterFatal]

/-- A running state executes the instruction whose encoding stands at `pc` (R69). -/
theorem step_of_holdsBytes {s : State} (hrun : s.run = .running) {i : Instr}
    (h : s.HoldsBytes (encode i)) : step s = exec i s :=
  step_of_fetch_instr hrun ((s.fetch_eq_instr_iff i).2 h)

/-- A first register byte that names no register is raised, whatever follows it (R68). -/
theorem exec_of_first_register_ge {i : Instr} {a : Byte} {rest : List Byte}
    (h : i.registerOperands = a :: rest) (ha : 8 ≤ a.toNat) (s : State) :
    exec i s = .next (s.afterFatal .invalidRegister a.toNat) := by
  rw [← State.raiseFatal_eq_afterFatal]
  refine exec_of_bad_register ?_ s
  rw [h]
  exact List.find?_cons_of_pos (decide_eq_true ha)

end Sys2Proof.Machine
end

section
/-! Data movement and output: LDI and PRN. -/

namespace Sys2Proof.Machine

/-- LDI writes its immediate to its register and advances past its three bytes (R75). -/
theorem exec_ldi_of_lt {a : Byte} (ha : a.toNat < 8) (b : Byte) (s : State) :
    exec (.ldi a b) s = .next { s with x := s.x.set a.toNat b, pc := s.pc + 3 } :=
  s.withReg_of_lt ha _

/-- PRN emits its register's value and advances past its two bytes (R76). -/
theorem exec_prn_of_lt {a : Byte} (ha : a.toNat < 8) (s : State) :
    exec (.prn a) s = .next { s with out := s.out ++ [.print s.x[a.toNat]], pc := s.pc + 2 } :=
  s.withReg_of_lt ha _

end Sys2Proof.Machine

namespace Sys2Proof.Proofs

open Sys2Proof.Machine

/-- Settles O20: the effect is `exec` past the register check; the rest holds of every instruction with
its row of the opcode map. -/
theorem ldiFollowsItsRule : Obligations.LdiFollowsItsRule := fun s a b =>
  ⟨decode_encode (.ldi a b),
    fun ha => exec_ldi_of_lt ha b s,
    fun ha => exec_of_first_register_ge (i := .ldi a b) rfl ha s,
    fun hrun hbytes => step_of_holdsBytes (i := .ldi a b) hrun hbytes,
    fun hrun hcut => step_of_cutOff (shape := .ri .ldi) hrun rfl hcut⟩

/-- Settles O21: as for LDI, with PRN's own effect and its row of the opcode map. -/
theorem prnFollowsItsRule : Obligations.PrnFollowsItsRule := fun s a =>
  ⟨decode_encode (.prn a),
    fun ha => exec_prn_of_lt ha s,
    fun ha => exec_of_first_register_ge (i := .prn a) rfl ha s,
    fun hrun hbytes => step_of_holdsBytes (i := .prn a) hrun hbytes,
    fun hrun hcut => step_of_cutOff (shape := .r .prn) hrun rfl hcut⟩

end Sys2Proof.Proofs
end

section
/-! The ALU: ADD, MUL and CMP. -/

namespace Sys2Proof.Machine

/-! ### The results of the ALU -/

/-- Narrowing to the cell width is the residue modulo 256 (R14). -/
theorem wrap_eq_ofNat_mod (v : Nat) : wrap v = BitVec.ofNat 8 (v % 256) :=
  BitVec.eq_of_toNat_eq (by simp [wrap_toNat])

/-- CMP compares the bytes themselves: their unsigned order is that of their values (R81). -/
theorem compareFlag_eq_ite (va vb : Byte) :
    compareFlag va vb = if va = vb then .equal else if va < vb then .lessThan else .greaterThan := by
  simp only [compareFlag, BitVec.toNat_inj, BitVec.lt_def]

/-- Exactly the flag state of the comparison holds, and never NONE (R83). -/
theorem compareFlag_eq_iff (va vb : Byte) :
    (compareFlag va vb = .equal ↔ va.toNat = vb.toNat) ∧
    (compareFlag va vb = .lessThan ↔ va.toNat < vb.toNat) ∧
    (compareFlag va vb = .greaterThan ↔ vb.toNat < va.toNat) ∧ compareFlag va vb ≠ .none := by
  unfold compareFlag
  split
  next heq => simp [heq]
  next hne =>
    split
    next hlt => simp [hne, hlt, hlt.le]
    next hge => simp [hne, hge, Nat.lt_of_le_of_ne (Nat.le_of_not_lt hge) (Ne.symm hne)]

/-! ### The three instructions past the register check, and the check of the second register -/

/-- ADD writes the sum to its first register and advances past its three bytes (R79). -/
theorem exec_add_of_lt {a b : Byte} (ha : a.toNat < 8) (hb : b.toNat < 8) (s : State) :
    exec (.add a b) s = .next { s with
      x := s.x.set a.toNat (BitVec.ofNat 8 ((s.x[a.toNat].toNat + s.x[b.toNat].toNat) % 256))
      pc := s.pc + 3 } := by
  rw [← wrap_eq_ofNat_mod]
  exact s.withRegs_of_lt ha hb _

/-- MUL writes the product to its first register and advances past its three bytes (R80). -/
theorem exec_mul_of_lt {a b : Byte} (ha : a.toNat < 8) (hb : b.toNat < 8) (s : State) :
    exec (.mul a b) s = .next { s with
      x := s.x.set a.toNat (BitVec.ofNat 8 ((s.x[a.toNat].toNat * s.x[b.toNat].toNat) % 256))
      pc := s.pc + 3 } := by
  rw [← wrap_eq_ofNat_mod]
  exact s.withRegs_of_lt ha hb _

/-- CMP writes the outcome of the comparison to `fl` and advances past its three bytes (R81). -/
theorem exec_cmp_of_lt {a b : Byte} (ha : a.toNat < 8) (hb : b.toNat < 8) (s : State) :
    exec (.cmp a b) s =
      .next { s with fl := compareFlag s.x[a.toNat] s.x[b.toNat], pc := s.pc + 3 } :=
  s.withRegs_of_lt ha hb _

/-- A second register byte that names no register is raised once the first one has passed (R68, R97). -/
theorem exec_of_second_register_ge {i : Instr} {a b : Byte} {rest : List Byte}
    (h : i.registerOperands = a :: b :: rest) (ha : a.toNat < 8) (hb : 8 ≤ b.toNat) (s : State) :
    exec i s = .next (s.afterFatal .invalidRegister b.toNat) := by
  rw [← State.raiseFatal_eq_afterFatal]
  refine exec_of_bad_register ?_ s
  rw [h, List.find?_cons_of_neg (by simpa using ha)]
  exact List.find?_cons_of_pos (decide_eq_true hb)

end Sys2Proof.Machine

namespace Sys2Proof.Proofs

open Sys2Proof.Machine

/-- Settles O22: the effect is `exec` past both register checks; the rest holds of every instruction with
two registers and its row of the opcode map. -/
theorem addFollowsItsRule : Obligations.AddFollowsItsRule := fun s a b =>
  ⟨decode_encode (.add a b),
    fun ha hb => exec_add_of_lt ha hb s,
    fun ha => exec_of_first_register_ge (i := .add a b) rfl ha s,
    fun ha hb => exec_of_second_register_ge (i := .add a b) rfl ha hb s,
    fun hrun hbytes => step_of_holdsBytes (i := .add a b) hrun hbytes,
    fun hrun hcut => step_of_cutOff (shape := .rr .add) hrun rfl hcut⟩

/-- Settles O23: as for ADD, with MUL's own effect and its row of the opcode map. -/
theorem mulFollowsItsRule : Obligations.MulFollowsItsRule := fun s a b =>
  ⟨decode_encode (.mul a b),
    fun ha hb => exec_mul_of_lt ha hb s,
    fun ha => exec_of_first_register_ge (i := .mul a b) rfl ha s,
    fun ha hb => exec_of_second_register_ge (i := .mul a b) rfl ha hb s,
    fun hrun hbytes => step_of_holdsBytes (i := .mul a b) hrun hbytes,
    fun hrun hcut => step_of_cutOff (shape := .rr .mul) hrun rfl hcut⟩

/-- Settles O24: as for ADD, with the comparison of the two bytes as CMP's effect. -/
theorem cmpFollowsItsRule : Obligations.CmpFollowsItsRule := fun s a b =>
  ⟨decode_encode (.cmp a b),
    fun ha hb => by rw [exec_cmp_of_lt ha hb, compareFlag_eq_ite],
    fun ha => exec_of_first_register_ge (i := .cmp a b) rfl ha s,
    fun ha hb => exec_of_second_register_ge (i := .cmp a b) rfl ha hb s,
    fun hrun hbytes => step_of_holdsBytes (i := .cmp a b) hrun hbytes,
    fun hrun hcut => step_of_cutOff (shape := .rr .cmp) hrun rfl hcut⟩

/-- Settles O42: the flag that CMP leaves is the comparison's alone. -/
theorem comparisonConsistency : Obligations.ComparisonConsistency := fun s _ _ ha hb =>
  ⟨_, exec_cmp_of_lt ha hb s, compareFlag_eq_iff _ _⟩

end Sys2Proof.Proofs
end

section
/-! Control transfer: JMP and JEQ. -/

namespace Sys2Proof.Machine

/-- JMP moves `pc` to its register's value (R89). -/
theorem exec_jmp_of_lt {a : Byte} (ha : a.toNat < 8) (s : State) :
    exec (.jmp a) s = .next { s with pc := s.x[a.toNat].toNat } :=
  s.withReg_of_lt ha _

/-- JEQ on EQUAL moves `pc` to its register's value (R90). -/
theorem exec_jeq_of_equal {a : Byte} (ha : a.toNat < 8) {s : State} (hfl : s.fl = .equal) :
    exec (.jeq a) s = .next { s with pc := s.x[a.toNat].toNat } :=
  (s.withReg_of_lt ha _).trans (congrArg _ (if_pos (s.flagIsEqual_iff.2 hfl)))

/-- JEQ on any other flag state advances past its two bytes (R90). -/
theorem exec_jeq_of_ne_equal {a : Byte} (ha : a.toNat < 8) {s : State} (hfl : s.fl ≠ .equal) :
    exec (.jeq a) s = .next { s with pc := s.pc + 2 } :=
  (s.withReg_of_lt ha _).trans (congrArg _ (if_neg (mt s.flagIsEqual_iff.1 hfl)))

end Sys2Proof.Machine

namespace Sys2Proof.Proofs

open Sys2Proof.Machine

/-- Settles O27: the effect is `exec` past the register check; the rest holds of every instruction with
its row of the opcode map. -/
theorem jmpFollowsItsRule : Obligations.JmpFollowsItsRule := fun s a =>
  ⟨decode_encode (.jmp a),
    fun ha => exec_jmp_of_lt ha s,
    fun ha => exec_of_first_register_ge (i := .jmp a) rfl ha s,
    fun hrun hbytes => step_of_holdsBytes (i := .jmp a) hrun hbytes,
    fun hrun hcut => step_of_cutOff (shape := .r .jmp) hrun rfl hcut⟩

/-- Settles O28: as for JMP, with the effect split on `fl`; the register check comes before the test
of `fl`. -/
theorem jeqFollowsItsRule : Obligations.JeqFollowsItsRule := fun s a =>
  ⟨decode_encode (.jeq a),
    fun ha hfl => exec_jeq_of_equal ha hfl,
    fun ha hfl => exec_jeq_of_ne_equal ha hfl,
    fun ha => exec_of_first_register_ge (i := .jeq a) rfl ha s,
    fun hrun hbytes => step_of_holdsBytes (i := .jeq a) hrun hbytes,
    fun hrun hcut => step_of_cutOff (shape := .r .jeq) hrun rfl hcut⟩

end Sys2Proof.Proofs
end

section
/-! The stack and JNE: PUSH, POP, the conditional jump on any flag state but EQUAL. -/

namespace Sys2Proof.Machine

/-- PUSH writes its register's value to the cell at `sp`, decrements `sp` and advances past its two
bytes; the address is always inside the memory (R85). -/
theorem exec_push_of_lt {a : Byte} (ha : a.toNat < 8) (s : State) :
    exec (.push a) s = .next { s with
      mem := s.mem.write s.sp.toNat s.x[a.toNat]
      sp := spBelow s.sp
      pc := s.pc + 2 } :=
  (s.withReg_of_lt ha _).trans (s.memWrite_of_lt s.pushAddress_lt _ _)

/-- `sp` one higher, as a number narrowed to the cell width (R19). -/
theorem spAbove_eq_ofNat_mod (sp : Byte) : spAbove sp = BitVec.ofNat 8 ((sp.toNat + 1) % 256) :=
  BitVec.eq_of_toNat_eq (by simp [spAbove_toNat])

/-- `sp` one lower, as a number narrowed to the cell width (R19). -/
theorem spBelow_eq_ofNat_mod (sp : Byte) : spBelow sp = BitVec.ofNat 8 ((sp.toNat + 255) % 256) :=
  BitVec.eq_of_toNat_eq (by simp [spBelow_toNat])

/-- POP moves the cell above `sp` to its register, increments `sp` and advances past its two bytes; the
address is always inside the memory (R86). -/
theorem exec_pop_of_lt {a : Byte} (ha : a.toNat < 8) (s : State) :
    exec (.pop a) s = .next { s with
      x := s.x.set a.toNat (s.mem.read ((s.sp.toNat + 1) % 256))
      sp := BitVec.ofNat 8 ((s.sp.toNat + 1) % 256)
      pc := s.pc + 2 } := by
  rw [← spAbove_eq_ofNat_mod, ← s.popAddress_eq]
  exact (s.withReg_of_lt ha _).trans (s.memRead_of_lt s.popAddress_lt _)

/-- JNE on any flag state but EQUAL moves `pc` to its register's value (R91). -/
theorem exec_jne_of_ne_equal {a : Byte} (ha : a.toNat < 8) {s : State} (hfl : s.fl ≠ .equal) :
    exec (.jne a) s = .next { s with pc := s.x[a.toNat].toNat } :=
  (s.withReg_of_lt ha _).trans (congrArg _ (if_neg (mt s.flagIsEqual_iff.1 hfl)))

/-- JNE on EQUAL advances past its two bytes (R91). -/
theorem exec_jne_of_equal {a : Byte} (ha : a.toNat < 8) {s : State} (hfl : s.fl = .equal) :
    exec (.jne a) s = .next { s with pc := s.pc + 2 } :=
  (s.withReg_of_lt ha _).trans (congrArg _ (if_pos (s.flagIsEqual_iff.2 hfl)))

end Sys2Proof.Machine

namespace Sys2Proof.Proofs

open Sys2Proof.Machine

/-- Settles O25: the effect is `exec` past the register check, read through the rule of a written cell;
the rest holds of every instruction with its row of the opcode map. -/
theorem pushFollowsItsRule : Obligations.PushFollowsItsRule := fun s a =>
  ⟨decode_encode (.push a),
    fun ha => ⟨_, exec_push_of_lt ha s, Memory.read_write_same .., fun _ hne =>
      Memory.read_write_of_ne hne .., spBelow_toNat s.sp, rfl, rfl, rfl, rfl, rfl, rfl⟩,
    fun ha => exec_of_first_register_ge (i := .push a) rfl ha s,
    fun hrun hbytes => step_of_holdsBytes (i := .push a) hrun hbytes,
    fun hrun hcut => step_of_cutOff (shape := .r .push) hrun rfl hcut⟩

/-- Settles O26: as for PUSH, with the whole state POP leaves as its effect. -/
theorem popFollowsItsRule : Obligations.PopFollowsItsRule := fun s a =>
  ⟨decode_encode (.pop a),
    fun ha => exec_pop_of_lt ha s,
    fun ha => exec_of_first_register_ge (i := .pop a) rfl ha s,
    fun hrun hbytes => step_of_holdsBytes (i := .pop a) hrun hbytes,
    fun hrun hcut => step_of_cutOff (shape := .r .pop) hrun rfl hcut⟩

/-- Settles O29: the effect is split on `fl`, after the register check. -/
theorem jneFollowsItsRule : Obligations.JneFollowsItsRule := fun s a =>
  ⟨decode_encode (.jne a),
    fun ha hfl => exec_jne_of_ne_equal ha hfl,
    fun ha hfl => exec_jne_of_equal ha hfl,
    fun ha => exec_of_first_register_ge (i := .jne a) rfl ha s,
    fun hrun hbytes => step_of_holdsBytes (i := .jne a) hrun hbytes,
    fun hrun hcut => step_of_cutOff (shape := .r .jne) hrun rfl hcut⟩

/-- Settles O43: one of the two jumps is taken on EQUAL and the other on every other flag state. -/
theorem exactlyOneConditionalJumpIsTaken : Obligations.ExactlyOneConditionalJumpIsTaken := by
  intro s a ha
  by_cases hfl : s.fl = .equal
  · exact ⟨_, _, exec_jeq_of_equal ha hfl, exec_jne_of_equal ha hfl, .inl ⟨rfl, rfl, hfl⟩⟩
  · exact ⟨_, _, exec_jeq_of_ne_equal ha hfl, exec_jne_of_ne_equal ha hfl, .inr ⟨rfl, rfl, hfl⟩⟩

end Sys2Proof.Proofs
end

section
/-! What a fetch can give, over all states. -/

namespace Sys2Proof

/-- The decoder answers exactly the instruction whose encoding the bytes begin with (R51, R60). -/
theorem decode_eq_instr_iff (bytes : List Byte) (i : Instr) :
    decode bytes = .instr i ↔ encode i <+: bytes :=
  (decodeWith_eq_instr_iff _ i).trans List.prefix_iff_getElem?.symm

/-- The row of the opcode map that a lookup found. -/
theorem exists_row_of_lookup {op : Byte} {shape : Shape} (h : lookupOpcode op = some shape) :
    ∃ row ∈ opcodeMap, row.code = op ∧ row.shape = shape := by
  obtain ⟨row, hfind, hshape⟩ := Option.map_eq_some_iff.1 h
  exact ⟨row, List.mem_of_find?_eq_some hfind, by simpa using List.find?_some hfind, hshape⟩

/-- With all its operand bytes there, an opcode byte of the map decodes to an instruction (R52). -/
theorem decodeWith_of_operands {read : Nat → Option Byte} {op : Byte} {shape : Shape}
    (h0 : read 0 = some op) (hl : lookupOpcode op = some shape)
    (hread : ∀ k, k ≤ shape.operandCount → ∃ v, read k = some v) :
    ∃ i, decodeWith read = .instr i := by
  have two {make : Byte → Byte → Instr}
      (hl : lookupOpcode op = some (.rr make) ∨ lookupOpcode op = some (.ri make))
      (hread : ∀ k, k ≤ 2 → ∃ v, read k = some v) : ∃ i, decodeWith read = .instr i := by
    obtain ⟨a, ha⟩ := hread 1 (by decide)
    obtain ⟨b, hb⟩ := hread 2 (by decide)
    exact ⟨_, by rw [decodeWith_of_two h0 hl, withByte_of_some ha, withByte_of_some hb]⟩
  cases shape with
  | z i => exact ⟨i, decodeWith_of_z h0 hl⟩
  | r make =>
    obtain ⟨a, ha⟩ := hread 1 le_rfl
    exact ⟨_, by rw [decodeWith_of_r h0 hl, withByte_of_some ha]⟩
  | rr make => exact two (.inl hl) hread
  | ri make => exact two (.inr hl) hread

end Sys2Proof

namespace Sys2Proof.Machine

/-- A `pc` past the memory is fatal at the fetch of the opcode byte (R64). -/
theorem State.fetch_of_pc_ge {s : State} (hpc : 256 ≤ s.pc) :
    s.fetch = .fatal .memoryOutOfRange s.pc := by
  have hdecode : decodeWith (fun offset => s.cell? (s.pc + offset)) = .missingByte 0 :=
    withByte_of_none (read := fun offset => s.cell? (s.pc + offset)) (s.cell?_of_ge hpc) _
  simp only [fetch, hdecode, Nat.add_zero]

/-- All a fetch can meet, in the order of its checks: `pc` past the memory, an opcode byte outside the
map, an instruction cut off by the end of memory, or a whole instruction (R64 to R67). -/
theorem State.fetch_cases (s : State) :
    256 ≤ s.pc ∨
    (s.pc < 256 ∧ s.opcodeByte ∉ opcodeBytes) ∨
    (∃ shape, lookupOpcode (s.mem.read s.pc) = some shape ∧
      s.CutOff (s.mem.read s.pc) shape.operandCount) ∨
    ∃ i, s.HoldsBytes (encode i) := by
  refine (Nat.lt_or_ge s.pc 256).symm.imp_right fun hpc => ?_
  cases hl : lookupOpcode (s.mem.read s.pc) with
  | none => exact .inl ⟨hpc, (lookupOpcode_eq_none_iff _).1 hl⟩
  | some shape =>
    refine .inr ((Nat.lt_or_ge (s.pc + shape.operandCount) 256).symm.imp
      (fun hcut => ⟨shape, rfl, hpc, rfl, hcut⟩) fun hfit => ?_)
    obtain ⟨i, hi⟩ := decodeWith_of_operands (read := fun offset => s.cell? (s.pc + offset))
      (s.cell?_of_lt hpc) hl fun k hk => ⟨_, s.cell?_of_lt (by omega)⟩
    exact ⟨i, (s.fetch_eq_instr_iff i).1 (by simp only [fetch, hi])⟩

end Sys2Proof.Machine

namespace Sys2Proof.Proofs

open Sys2Proof.Machine

/-- Settles O2: both ways are the decoder's spec lemma. -/
theorem decodeEncodeAgree : Obligations.DecodeEncodeAgree :=
  ⟨fun i rest => (decode_eq_instr_iff _ i).2 (List.prefix_append _ rest),
    fun bytes i h => ((decode_eq_instr_iff bytes i).1 h).imp fun _ => Eq.symm⟩

/-- Settles O4. -/
theorem stepRunsDecodedInstruction : Obligations.StepRunsDecodedInstruction :=
  fun _ _ hrun hbytes => step_of_holdsBytes hrun hbytes

end Sys2Proof.Proofs
end

section
/-! The spec's pseudocode of the whole step (R70), line by line, and the model's step against it. -/

namespace Sys2Proof

/-- The spec's lists of opcode bytes give the operand count of each row of the map (R53). -/
theorem operandCount_of_lookup {op : Byte} {shape : Shape} (h : lookupOpcode op = some shape) :
    shape.operandCount =
      if op.toNat = 1 then 0 else if op.toNat ∈ Machine.twoOperandOpcodes then 2 else 1 := by
  obtain ⟨row, hrow, rfl, rfl⟩ := exists_row_of_lookup h
  exact (by decide : ∀ row ∈ opcodeMap, row.shape.operandCount =
    if row.code.toNat = 1 then 0 else if row.code.toNat ∈ Machine.twoOperandOpcodes then 2 else 1)
    row hrow

end Sys2Proof

namespace Sys2Proof.Reference

open Sys2Proof.Machine

/-! ### The spec's lists of opcode bytes, each inside the next -/

theorem mem_twoOperandOpcodes_of_registers {op : Nat} (h : op ∈ twoRegisterOpcodes) :
    op ∈ twoOperandOpcodes :=
  (by decide : ∀ op ∈ twoRegisterOpcodes, op ∈ twoOperandOpcodes) op h

theorem mem_operandOpcodes_of_two {op : Nat} (h : op ∈ twoOperandOpcodes) : op ∈ operandOpcodes :=
  (by decide : ∀ op ∈ twoOperandOpcodes, op ∈ operandOpcodes) op h

theorem mem_opcodeBytes_of_operand {op : Nat} (h : op ∈ operandOpcodes) :
    op ∈ opcodeBytes ∧ op ≠ 1 :=
  (by decide : ∀ op ∈ operandOpcodes, op ∈ opcodeBytes ∧ op ≠ 1) op h

/-! ### The lines of the pseudocode, in their order -/

section
variable {s : State}

theorem step_of_pc_ge (hpc : 256 ≤ s.pc) : step s = s.afterFatal .memoryOutOfRange s.pc :=
  if_pos hpc

theorem step_of_unknown_opcode (hpc : s.pc < 256) (hop : s.opcodeByte ∉ opcodeBytes) :
    step s = s.afterFatal .invalidInstruction s.opcodeByte :=
  (if_neg hpc.not_ge).trans (if_pos hop)

theorem step_of_hlt (hpc : s.pc < 256) (hop : s.opcodeByte = 1) :
    step s = { s with run := .halted } := by
  have hmem : ¬ s.opcodeByte ∉ opcodeBytes := by simp [hop]
  exact (if_neg hpc.not_ge).trans ((if_neg hmem).trans (if_pos hop))

/-- An opcode byte that takes operands passes the lines before their fetch. -/
theorem step_of_operandOpcode (hpc : s.pc < 256) (hop : s.opcodeByte ∈ operandOpcodes) :
    step s =
      if 256 ≤ s.pc + 1 then s.afterFatal .memoryOutOfRange (s.pc + 1)
      else if s.opcodeByte ∈ twoOperandOpcodes ∧ 256 ≤ s.pc + 2 then
        s.afterFatal .memoryOutOfRange (s.pc + 2)
      else if 8 ≤ (s.mem.read (s.pc + 1)).toNat then
        s.afterFatal .invalidRegister (s.mem.read (s.pc + 1)).toNat
      else if s.opcodeByte ∈ twoRegisterOpcodes ∧ 8 ≤ (s.mem.read (s.pc + 2)).toNat then
        s.afterFatal .invalidRegister (s.mem.read (s.pc + 2)).toNat
      else handle s s.opcodeByte (s.mem.read (s.pc + 1)).toNat (s.mem.read (s.pc + 2)).toNat := by
  obtain ⟨hmem, hne⟩ := mem_opcodeBytes_of_operand hop
  exact (if_neg hpc.not_ge).trans ((if_neg (not_not.2 hmem)).trans (if_neg hne))

theorem step_of_missing_a (hpc : s.pc = 255) (hop : s.opcodeByte ∈ operandOpcodes) :
    step s = s.afterFatal .memoryOutOfRange (s.pc + 1) :=
  (step_of_operandOpcode (by omega) hop).trans (if_pos (by omega))

theorem step_of_missing_b (hpc : s.pc = 254) (hop : s.opcodeByte ∈ twoOperandOpcodes) :
    step s = s.afterFatal .memoryOutOfRange (s.pc + 2) :=
  (step_of_operandOpcode (by omega) (mem_operandOpcodes_of_two hop)).trans
    ((if_neg (by omega)).trans (if_pos ⟨hop, by omega⟩))

section
variable (hfit : s.pc < 254 ∨ (s.pc = 254 ∧ s.opcodeByte ∉ twoOperandOpcodes))
  (hop : s.opcodeByte ∈ operandOpcodes)
include hfit hop

/-- With all operand bytes there, only the register checks come before the handler. -/
theorem step_of_operands :
    step s =
      if 8 ≤ (s.mem.read (s.pc + 1)).toNat then
        s.afterFatal .invalidRegister (s.mem.read (s.pc + 1)).toNat
      else if s.opcodeByte ∈ twoRegisterOpcodes ∧ 8 ≤ (s.mem.read (s.pc + 2)).toNat then
        s.afterFatal .invalidRegister (s.mem.read (s.pc + 2)).toNat
      else handle s s.opcodeByte (s.mem.read (s.pc + 1)).toNat (s.mem.read (s.pc + 2)).toNat := by
  have hb : ¬ (s.opcodeByte ∈ twoOperandOpcodes ∧ 256 ≤ s.pc + 2) := fun ⟨htwo, hge⟩ =>
    hfit.elim (by omega) fun h => h.2 htwo
  rw [step_of_operandOpcode (by omega) hop, if_neg (by omega), if_neg hb]

theorem step_of_bad_a (ha : 8 ≤ (s.mem.read (s.pc + 1)).toNat) :
    step s = s.afterFatal .invalidRegister (s.mem.read (s.pc + 1)).toNat :=
  (step_of_operands hfit hop).trans (if_pos ha)

theorem step_of_bad_b (ha : (s.mem.read (s.pc + 1)).toNat < 8)
    (hrr : s.opcodeByte ∈ twoRegisterOpcodes) (hb : 8 ≤ (s.mem.read (s.pc + 2)).toNat) :
    step s = s.afterFatal .invalidRegister (s.mem.read (s.pc + 2)).toNat :=
  (step_of_operands hfit hop).trans ((if_neg ha.not_ge).trans (if_pos ⟨hrr, hb⟩))

theorem step_of_registers (ha : (s.mem.read (s.pc + 1)).toNat < 8)
    (hb : s.opcodeByte ∈ twoRegisterOpcodes → (s.mem.read (s.pc + 2)).toNat < 8) :
    step s = handle s s.opcodeByte (s.mem.read (s.pc + 1)).toNat (s.mem.read (s.pc + 2)).toNat :=
  (step_of_operands hfit hop).trans
    ((if_neg ha.not_ge).trans (if_neg fun h => (hb h.1).not_ge h.2))

end

/-- An instruction cut off by the end of memory is fatal at address 256, whichever byte is missing. -/
theorem step_of_cutOff {shape : Shape} (hl : lookupOpcode (s.mem.read s.pc) = some shape)
    (h : s.CutOff (s.mem.read s.pc) shape.operandCount) :
    step s = s.afterFatal .memoryOutOfRange 256 := by
  obtain ⟨hpc, -, hcut⟩ := h
  rw [operandCount_of_lookup hl] at hcut
  have hop : s.opcodeByte ∈ operandOpcodes := by
    have hmem : s.opcodeByte ∈ opcodeBytes := by
      by_contra hno
      cases hl.symm.trans ((lookupOpcode_eq_none_iff _).2 hno)
    have hne : s.opcodeByte ≠ 1 := fun h1 => by
      rw [if_pos h1] at hcut
      omega
    exact (by decide : ∀ op ∈ opcodeBytes, op ≠ 1 → op ∈ operandOpcodes) _ hmem hne
  rw [if_neg (mem_opcodeBytes_of_operand hop).2] at hcut
  by_cases hpc' : s.pc = 255
  · rw [step_of_missing_a hpc' hop, hpc']
  · split at hcut
    · have hpc' : s.pc = 254 := by omega
      rw [step_of_missing_b hpc' ‹_›, hpc']
    · omega

end

/-! ### The registers of the pseudocode -/

theorem x_of_lt (s : State) {i : Nat} (h : i < 8) : x s i = s.x[i].toNat := by
  simp [x, h]

theorem setX_of_lt (s : State) {i : Nat} (h : i < 8) (v : Nat) :
    setX s i v = { s with x := s.x.set i (BitVec.ofNat 8 (v % 256)) } := by
  have hset : s.x.setIfInBounds i (BitVec.ofNat 8 (v % 256)) =
      s.x.set i (BitVec.ofNat 8 (v % 256)) := by
    ext j hj
    rw [Vector.getElem_setIfInBounds, Vector.getElem_set]
  rw [setX, hset]

/-- A byte is written as it is. -/
theorem setX_toNat_of_lt (s : State) {i : Nat} (h : i < 8) (v : Byte) :
    setX s i v.toNat = { s with x := s.x.set i v } := by
  rw [setX_of_lt s h, Nat.mod_eq_of_lt v.isLt, BitVec.ofNat_toNat, BitVec.setWidth_eq]

/-! ### The handlers -/

/-- An instruction of one operand byte is the pseudocode's step if its handler is, the register check
passed; the handler reads no byte past `a`. -/
theorem exec_eq_step_of_one {s : State} {i : Instr} {op a : Byte} (h : s.HoldsBytes [op, a])
    (hop : op.toNat ∈ operandOpcodes ∧ op.toNat ∉ twoOperandOpcodes) (hreg : i.registerOperands = [a])
    (hok : a.toNat < 8 → ∀ b, exec i s = .next (handle s op.toNat a.toNat b)) :
    exec i s = .next (step s) := by
  obtain ⟨-, rfl⟩ := h 0 (by simp)
  obtain ⟨hpc1, rfl⟩ := h 1 (by simp)
  have hfit : s.pc < 254 ∨ (s.pc = 254 ∧ s.opcodeByte ∉ twoOperandOpcodes) :=
    (Nat.lt_or_ge s.pc 254).imp_right fun hge => ⟨by omega, hop.2⟩
  rcases Nat.lt_or_ge (s.mem.read (s.pc + 1)).toNat 8 with ha | ha
  · rw [step_of_registers hfit hop.1 ha fun hrr =>
      absurd (mem_twoOperandOpcodes_of_registers hrr) hop.2]
    exact hok ha _
  · rw [step_of_bad_a hfit hop.1 ha]
    exact exec_of_first_register_ge hreg ha s

/-- An instruction of two register bytes is the pseudocode's step if its handler is, both register
checks passed. -/
theorem exec_eq_step_of_two {s : State} {i : Instr} {op a b : Byte} (h : s.HoldsBytes [op, a, b])
    (hrr : op.toNat ∈ twoRegisterOpcodes) (hreg : i.registerOperands = [a, b])
    (hok : a.toNat < 8 → b.toNat < 8 → exec i s = .next (handle s op.toNat a.toNat b.toNat)) :
    exec i s = .next (step s) := by
  obtain ⟨-, rfl⟩ := h 0 (by simp)
  obtain ⟨-, rfl⟩ := h 1 (by simp)
  obtain ⟨hpc2, rfl⟩ := h 2 (by simp)
  have hfit : s.pc < 254 ∨ (s.pc = 254 ∧ s.opcodeByte ∉ twoOperandOpcodes) := .inl (by omega)
  have hop := mem_operandOpcodes_of_two (mem_twoOperandOpcodes_of_registers hrr)
  rcases Nat.lt_or_ge (s.mem.read (s.pc + 1)).toNat 8 with ha | ha
  · rcases Nat.lt_or_ge (s.mem.read (s.pc + 2)).toNat 8 with hb | hb
    · rw [step_of_registers hfit hop ha fun _ => hb]
      exact hok ha hb
    · rw [step_of_bad_b hfit hop ha hrr hb]
      exact exec_of_second_register_ge hreg ha hb s
  · rw [step_of_bad_a hfit hop ha]
    exact exec_of_first_register_ge hreg ha s

/-- LDI is the pseudocode's step: its second operand byte is not checked (R56). -/
theorem exec_ldi_eq_step {s : State} {a b : Byte} (h : s.HoldsBytes [0x82, a, b]) :
    exec (.ldi a b) s = .next (step s) := by
  obtain ⟨-, hop⟩ := h 0 (by simp)
  obtain ⟨-, rfl⟩ := h 1 (by simp)
  obtain ⟨hpc2, rfl⟩ := h 2 (by simp)
  have hop : s.opcodeByte = 130 := congrArg BitVec.toNat hop
  have hmem : s.opcodeByte ∈ operandOpcodes := by simp [hop]
  have hfit : s.pc < 254 ∨ (s.pc = 254 ∧ s.opcodeByte ∉ twoOperandOpcodes) := .inl (by omega)
  rcases Nat.lt_or_ge (s.mem.read (s.pc + 1)).toNat 8 with ha | ha
  · rw [step_of_registers hfit hmem ha fun hrr => by simp [hop] at hrr, hop, exec_ldi_of_lt ha]
    simp [handle, setX_toNat_of_lt s ha]
  · rw [step_of_bad_a hfit hmem ha]
    exact exec_of_first_register_ge (i := .ldi _ _) rfl ha s

/-- Where the bytes of an instruction stand at `pc`, the meaning of the instruction is the pseudocode's
step: one handler per instruction (R75 to R91). -/
theorem exec_eq_step {s : State} {i : Instr} (h : s.HoldsBytes (encode i)) :
    exec i s = .next (step s) := by
  cases i with
  | ldi a b => exact exec_ldi_eq_step h
  | prn a =>
    refine exec_eq_step_of_one (op := 0x47) h (by decide) rfl fun ha b => ?_
    simp [exec_prn_of_lt ha, handle, x_of_lt s ha]
  | add a b =>
    refine exec_eq_step_of_two (op := 0xA0) h (by decide) rfl fun ha hb => ?_
    simp [exec_add_of_lt ha hb, handle, setX_of_lt s ha, x_of_lt s ha, x_of_lt s hb]
  | mul a b =>
    refine exec_eq_step_of_two (op := 0xA2) h (by decide) rfl fun ha hb => ?_
    simp [exec_mul_of_lt ha hb, handle, setX_of_lt s ha, x_of_lt s ha, x_of_lt s hb]
  | cmp a b =>
    refine exec_eq_step_of_two (op := 0xA7) h (by decide) rfl fun ha hb => ?_
    simp [exec_cmp_of_lt ha hb, handle, compareFlag, x_of_lt s ha, x_of_lt s hb]
  | push a =>
    refine exec_eq_step_of_one (op := 0x45) h (by decide) rfl fun ha b => ?_
    simp [exec_push_of_lt ha, handle, x_of_lt s ha, spBelow_eq_ofNat_mod]
  | pop a =>
    refine exec_eq_step_of_one (op := 0x46) h (by decide) rfl fun ha b => ?_
    simp [exec_pop_of_lt ha, handle, setX_toNat_of_lt s ha]
  | jmp a =>
    refine exec_eq_step_of_one (op := 0x54) h (by decide) rfl fun ha b => ?_
    simp [exec_jmp_of_lt ha, handle, x_of_lt s ha]
  | jeq a =>
    refine exec_eq_step_of_one (op := 0x55) h (by decide) rfl fun ha b => ?_
    by_cases hfl : s.fl = .equal
    · simp [exec_jeq_of_equal ha hfl, handle, x_of_lt s ha, hfl]
    · simp [exec_jeq_of_ne_equal ha hfl, handle, hfl]
  | jne a =>
    refine exec_eq_step_of_one (op := 0x56) h (by decide) rfl fun ha b => ?_
    by_cases hfl : s.fl = .equal
    · simp [exec_jne_of_equal ha hfl, handle, hfl]
    · simp [exec_jne_of_ne_equal ha hfl, handle, x_of_lt s ha, hfl]
  | hlt =>
    obtain ⟨hpc, hop⟩ := h 0 (by decide)
    rw [step_of_hlt hpc (congrArg BitVec.toNat hop)]
    exact exec_hlt s

end Sys2Proof.Reference

namespace Sys2Proof.Proofs

open Sys2Proof.Machine

/-- Settles O6: each way a fetch can go is one line of the pseudocode. -/
theorem stepEqualsSpecPseudocode : Obligations.StepEqualsSpecPseudocode := by
  intro s hrun
  rcases s.fetch_cases with hpc | ⟨hpc, hop⟩ | ⟨shape, hl, hcut⟩ | ⟨i, hbytes⟩
  · rw [step_of_fetch_fatal hrun (State.fetch_of_pc_ge hpc), Reference.step_of_pc_ge hpc,
      State.raiseFatal_eq_afterFatal]
  · rw [step_of_fetch_fatal hrun (State.fetch_of_unknown_opcode hpc hop),
      Reference.step_of_unknown_opcode hpc hop, State.raiseFatal_eq_afterFatal]
  · rw [step_of_cutOff hrun hl hcut, Reference.step_of_cutOff hl hcut]
  · rw [step_of_holdsBytes hrun hbytes, Reference.exec_eq_step hbytes]

/-- Settles O7: the step is the pseudocode, whose lines raise the fatal conditions in the spec's order. -/
theorem firstFatalConditionIsRaised : Obligations.FirstFatalConditionIsRaised := by
  intro s hrun
  rw [stepEqualsSpecPseudocode s hrun]
  exact ⟨fun hpc => congrArg _ (Reference.step_of_pc_ge hpc),
    fun hpc hop => congrArg _ (Reference.step_of_unknown_opcode hpc hop),
    fun hpc hop => congrArg _ (Reference.step_of_missing_a hpc hop),
    fun hpc hop => congrArg _ (Reference.step_of_missing_b hpc hop),
    fun hfit hop ha => congrArg _ (Reference.step_of_bad_a hfit hop ha),
    fun hpc hrr ha hb => congrArg _ (Reference.step_of_bad_b (.inl hpc)
      (Reference.mem_operandOpcodes_of_two (Reference.mem_twoOperandOpcodes_of_registers hrr))
      ha hrr hb),
    fun hpc hop => ⟨_, congrArg _ (Reference.step_of_hlt hpc hop), rfl, rfl⟩⟩

/-- Settles O5: no step begins but in RUNNING, and there the pseudocode gives the next state. -/
theorem stepTakenOnlyWhileRunning : Obligations.StepTakenOnlyWhileRunning := fun s =>
  ⟨fun ⟨_, h⟩ => (step_cases h).1, fun hrun => ⟨_, stepEqualsSpecPseudocode s hrun⟩⟩

end Sys2Proof.Proofs
end

section
/-! What an instruction that completes writes, register by register and cell by cell. -/

namespace Sys2Proof

/-- The register operand byte of an instruction that writes a general register (R12). -/
def Instr.destination : Instr → Option Byte
  | .ldi a _ | .add a _ | .mul a _ | .pop a => some a
  | .prn _ | .cmp _ _ | .push _ | .jmp _ | .jeq _ | .jne _ | .hlt => none

/-- The destination is the first operand byte of the four writers. -/
theorem Instr.opcode_operand_of_destination {i : Instr} {a : Byte} (h : i.destination = some a) :
    i.opcode.toNat ∈ [130, 160, 162, 70] ∧ ∃ rest, i.operands = a :: rest := by
  cases i <;> cases h <;> simp [opcode, operands]

/-- What an instruction leaves in `sp` (R17). -/
def Instr.spAfter (sp : Byte) : Instr → Byte
  | .push _ => Machine.spBelow sp
  | .pop _ => Machine.spAbove sp
  | _ => sp

/-- Well formed means that every register operand byte names a register (R55). -/
theorem Instr.wellFormed_iff (i : Instr) :
    i.wellFormed = true ↔ ∀ r ∈ i.registerOperands, r.toNat < 8 := by
  simp [wellFormed]

end Sys2Proof

namespace Sys2Proof.Machine

section
variable {i : Instr} {s t : State} (hw : i.wellFormed = true) (he : exec i s = .next t)
include hw he

/-- A completed instruction keeps every register but its destination. -/
theorem reg_of_ne_destination {j : Fin 8} (hj : ∀ a, i.destination = some a → j.val ≠ a.toNat) :
    t.x[j] = s.x[j] := by
  have frame := completionFrame_of_wellFormed hw he
  have spec := exec_of_wellFormed hw s
  cases i with
  | ldi a | pop a =>
    obtain ⟨ha, h⟩ := spec
    cases he.symm.trans h
    exact Vector.getElem_set_ne ha j.isLt (hj a rfl).symm
  | add a | mul a =>
    obtain ⟨ha, _, h⟩ := spec
    cases he.symm.trans h
    exact Vector.getElem_set_ne ha j.isLt (hj a rfl).symm
  | prn | cmp | push | jmp | jeq | jne | hlt => rw [frame.x (by simp [Instr.opcode])]

/-- A completed instruction leaves `sp` as a function of the old one. -/
theorem sp_of_completes : t.sp = i.spAfter s.sp := by
  have frame := completionFrame_of_wellFormed hw he
  have spec := exec_of_wellFormed hw s
  cases i with
  | push | pop =>
    obtain ⟨_, h⟩ := spec
    cases he.symm.trans h
    rfl
  | ldi | prn | add | mul | cmp | jmp | jeq | jne | hlt => exact frame.sp (by simp [Instr.opcode])

/-- A completed instruction leaves memory as it was, unless it is a PUSH, which writes the cell at
`sp`. -/
theorem mem_of_completes :
    t.mem = s.mem ∨ i.opcode = 0x45 ∧ ∃ v, t.mem = s.mem.write s.sp.toNat v := by
  have frame := completionFrame_of_wellFormed hw he
  have spec := exec_of_wellFormed hw s
  cases i with
  | push =>
    obtain ⟨_, h⟩ := spec
    cases he.symm.trans h
    exact .inr ⟨rfl, _, rfl⟩
  | ldi | prn | add | mul | cmp | pop | jmp | jeq | jne | hlt =>
    exact .inl (frame.mem (by simp [Instr.opcode]))

/-- A completed instruction emits a printed value or nothing. -/
theorem out_of_completes : t.out = s.out ∨ ∃ v, t.out = s.out ++ [.print v] := by
  have frame := completionFrame_of_wellFormed hw he
  cases i with
  | prn => exact .inr ⟨_, exec_prn_out ((Instr.wellFormed_iff _).1 hw _ List.mem_cons_self) he⟩
  | ldi | add | mul | cmp | push | pop | jmp | jeq | jne | hlt =>
    exact .inl (frame.out (by simp [Instr.opcode]))

/-- HLT keeps `pc`, and a taken jump goes to an address inside the memory (R92, R93). -/
theorem pc_of_not_advancesPast (hadv : ¬ s.advancesPast i) : t.pc = s.pc ∨ t.pc < 256 := by
  have spec := exec_of_wellFormed hw s
  cases i with
  | jmp =>
    obtain ⟨_, h⟩ := spec
    cases he.symm.trans h
    exact .inr (BitVec.isLt _)
  | jeq =>
    obtain ⟨_, h⟩ := spec
    rw [if_pos (s.flagIsEqual_iff.2 (not_not.1 hadv))] at h
    cases he.symm.trans h
    exact .inr (BitVec.isLt _)
  | jne =>
    obtain ⟨_, h⟩ := spec
    rw [if_neg (mt s.flagIsEqual_iff.1 hadv)] at h
    cases he.symm.trans h
    exact .inr (BitVec.isLt _)
  | hlt =>
    cases he.symm.trans spec
    exact .inl rfl
  | ldi | prn | add | mul | cmp | push | pop => exact absurd trivial hadv

end

/-- What an instruction leaves in `sp` depends on `sp` alone, also where it raises. -/
theorem exec_sp_congr {i : Instr} {s s' t u : State} (hsp : s'.sp = s.sp)
    (ht : exec i s = .next t) (hu : exec i s' = .next u) : u.sp = t.sp := by
  obtain hw | ⟨r, hr⟩ := wellFormed_or_bad_register i
  · rw [sp_of_completes hw ht, sp_of_completes hw hu, hsp]
  · cases ht.symm.trans (exec_of_bad_register hr s)
    cases hu.symm.trans (exec_of_bad_register hr s')
    exact hsp

/-- The first operand byte of a fetched instruction stands after the opcode byte. -/
theorem State.read_operand_of_fetch {s : State} {i : Instr} (h : s.fetch = .instr i) {a : Byte}
    {rest : List Byte} (ha : i.operands = a :: rest) : s.mem.read (s.pc + 1) = a := by
  have hlen : 1 < (encode i).length := by simp [encode, ha]
  exact ((s.fetch_eq_instr_iff i).1 h 1 hlen).2.trans (by simp [encode, ha])

end Sys2Proof.Machine

namespace Sys2Proof.Proofs

open Sys2Proof.Machine

/-! ### Single instructions -/

/-- Settles O31: a well-formed instruction stays within its frame. -/
theorem wellFormedInstructionsComplete : Obligations.WellFormedInstructionsComplete := by
  intro i s hw
  obtain ⟨t, he⟩ := exec_next i s
  have frame := completionFrame_of_wellFormed hw he
  exact ⟨t, he, frame.fault, frame.run⟩

/-- Settles O32. -/
theorem illFormedInstructionRaisesInvalidRegister :
    Obligations.IllFormedInstructionRaisesInvalidRegister :=
  fun _ s _ hr => (exec_of_bad_register hr s).trans (congrArg _ (s.raiseFatal_eq_afterFatal _ _))

/-- Settles O33: the three forms have `a` as destination, and their frame leaves out registers alone. -/
theorem registerResultFrame : Obligations.RegisterResultFrame := by
  intro s t a b i hi hw he
  obtain ⟨hdest, hop, hne⟩ :
      i.destination = some a ∧ i.opcode ∈ [(0x82 : Byte), 0xA0, 0xA2] ∧ i ≠ .hlt := by
    simp only [List.mem_cons, List.not_mem_nil, or_false] at hi
    obtain rfl | rfl | rfl := hi <;> exact ⟨rfl, by simp [Instr.opcode], nofun⟩
  have others : ∀ op ∈ [(0x82 : Byte), 0xA0, 0xA2],
      op ∉ [(0x45 : Byte), 0x46] ∧ op ≠ 0xA7 ∧ op ≠ 0x47 ∧ op ≠ 0x45 := by decide
  obtain ⟨hsp, hfl, hout, hmem⟩ := others i.opcode hop
  have frame := completionFrame_of_wellFormed hw he
  refine ⟨fun j hj => reg_of_ne_destination hw he fun v hv => ?_, frame.sp hsp, frame.fl hfl,
    by rw [frame.run, if_neg hne], frame.fault, frame.out hout, fun addr => by rw [frame.mem hmem]⟩
  cases hdest.symm.trans hv
  exact hj

/-- Settles O34: no opcode of the six writes a register, `sp` or a cell, and each exception of the
statement is an exception of the frame. -/
theorem noRegisterResultFrame : Obligations.NoRegisterResultFrame := by
  intro s t a b i hi hw he
  obtain ⟨hx, hsp, hmem, hfl, hout⟩ :
      i.opcode ∉ [(0x82 : Byte), 0xA0, 0xA2, 0x46] ∧ i.opcode ∉ [(0x45 : Byte), 0x46] ∧
      i.opcode ≠ 0x45 ∧ (i ≠ .cmp a b → i.opcode ≠ 0xA7) ∧ (i ≠ .prn a → i.opcode ≠ 0x47) := by
    simp only [List.mem_cons, List.not_mem_nil, or_false] at hi
    obtain rfl | rfl | rfl | rfl | rfl | rfl := hi <;> simp [Instr.opcode]
  have frame := completionFrame_of_wellFormed hw he
  exact ⟨frame.x hx, frame.sp hsp, frame.fault, fun hne => frame.fl (hfl hne),
    fun hne => frame.out (hout hne), fun hne => by rw [frame.run, if_neg hne],
    fun addr => by rw [frame.mem hmem]⟩

/-- Settles O35: PUSH writes one cell, by the rule of a written cell. -/
theorem pushFrame : Obligations.PushFrame := by
  intro s t a hw he
  have ha : a.toNat < 8 := (Instr.wellFormed_iff _).1 hw a List.mem_cons_self
  cases he.symm.trans (exec_push_of_lt ha s)
  refine ⟨fun addr haddr other hne => ?_, rfl, rfl, rfl, rfl, rfl⟩
  subst haddr
  exact Memory.read_write_of_ne hne ..

/-- Settles O36: POP has `a` as destination and reads memory alone. -/
theorem popFrame : Obligations.PopFrame := by
  intro s t a hw he
  have frame := completionFrame_of_wellFormed hw he
  refine ⟨fun j hj => reg_of_ne_destination hw he fun v hv => ?_, frame.fl (by simp [Instr.opcode]),
    frame.run, frame.fault, frame.out (by simp [Instr.opcode]),
    fun addr => by rw [frame.mem (by simp [Instr.opcode])]⟩
  cases hv
  exact hj

/-! ### Whole-machine rules -/

/-- Settles O39: a fatal step writes no register, and a completed instruction only its destination. -/
theorem registersWrittenOnlyAsDestination : Obligations.RegistersWrittenOnlyAsDestination := by
  intro s t j h hne
  obtain ⟨kind, info, rfl⟩ | ⟨i, hf, hw, he⟩ := step_raises_or_completes h
  · exact absurd rfl hne
  · obtain ⟨a, hdest, hj⟩ : ∃ a, i.destination = some a ∧ j.val = a.toNat := by
      by_contra hno
      exact hne (reg_of_ne_destination hw he fun a ha hj => hno ⟨a, ha, hj⟩)
    obtain ⟨hop, rest, hops⟩ := Instr.opcode_operand_of_destination hdest
    rw [State.read_operand_of_fetch hf hops, State.opcodeByte, State.read_pc_of_fetch hf]
    exact ⟨hop, hj.symm⟩

/-- Settles O40: a fatal step writes no cell, and a completed instruction only PUSH's. -/
theorem memoryWrittenOnlyByPush : Obligations.MemoryWrittenOnlyByPush := by
  intro s t addr h hne
  obtain ⟨kind, info, rfl⟩ | ⟨i, hf, hw, he⟩ := step_raises_or_completes h
  · exact absurd rfl hne
  · obtain hmem | ⟨hop, v, hmem⟩ := mem_of_completes hw he
    · exact absurd (by rw [hmem]) hne
    · refine ⟨(State.read_pc_of_fetch hf).trans hop, by_contra fun haddr => hne ?_⟩
      rw [hmem, Memory.read_write_of_ne haddr]

/-- R17: a step at another byte than PUSH's and POP's keeps `sp`. -/
theorem step_sp_of_ne {s t : State} (h : step s = .next t)
    (hne : s.mem.read s.pc ∉ [(0x45 : Byte), 0x46]) : t.sp = s.sp := by
  obtain ⟨kind, info, rfl⟩ | ⟨i, hf, hw, he⟩ := step_raises_or_completes h
  · rfl
  · rw [State.read_pc_of_fetch hf] at hne
    exact (completionFrame_of_wellFormed hw he).sp hne

/-- R16: the `sp` after a step does not depend on the registers. -/
theorem step_sp_of_other_registers {s t u : State} (x' : Vector Byte 8) (ht : step s = .next t)
    (hu : step { s with x := x' } = .next u) : u.sp = t.sp := by
  obtain ⟨hrun, ⟨kind, info, hf, rfl⟩ | ⟨i, hf, he⟩⟩ := step_cases ht
  · cases hu.symm.trans (step_of_fetch_fatal (s := { s with x := x' }) hrun hf)
    rfl
  · exact exec_sp_congr (s := s) (s' := { s with x := x' }) rfl he
      ((step_of_fetch_instr (s := { s with x := x' }) hrun hf).symm.trans hu)

/-- Settles O38: PUSH and POP alone have `sp` outside their frame, the new `sp` is a function of the old
one, and POP's effect gives both `sp` and register 7. -/
theorem stackPointerIsNotRegister7 : Obligations.StackPointerIsNotRegister7 := by
  obtain ⟨-, -, hreset, -⟩ := resetRegistersAreZero
  refine ⟨hreset, fun s t h hne => ?_, fun s t h hne => ?_,
    fun s t u v ht hu => step_sp_of_other_registers _ ht hu, fun s a ha hrun hbytes => ?_⟩
  · by_contra hop
    exact hne (step_sp_of_ne h (by simpa using hop))
  · obtain ⟨hop, ha⟩ := registersWrittenOnlyAsDestination s t 7 h hne
    exact ⟨hop, BitVec.eq_of_toNat_eq ha⟩
  · refine ⟨_, (step_of_holdsBytes (i := .pop a) hrun hbytes).trans (exec_pop_of_lt ha s), ?_, ?_⟩
    · simp
    · rintro rfl
      exact Vector.getElem_set_self _

end Sys2Proof.Proofs
end

section
/-! The invariant of a run, and how a run ends. -/

namespace Sys2Proof

theorem Shape.operandCount_le_two (shape : Shape) : shape.operandCount ≤ 2 := by
  cases shape <;> simp [operandCount]

end Sys2Proof

namespace Sys2Proof.Machine

/-! ### The info of a fatal condition is legal -/

/-- The fetch raises an opcode byte outside the map, or the first address past the memory at which it
needs a byte (R64, R65, R67). -/
theorem State.legal_of_fetch_fatal {s : State} {kind : FatalKind} {info : Nat}
    (h : s.fetch = .fatal kind info) : FaultRecord.legal ⟨kind, s.pc, info⟩ := by
  rcases s.fetch_cases with hpc | ⟨hpc, hop⟩ | ⟨shape, hl, hcut⟩ | ⟨i, hbytes⟩
  · cases h.symm.trans (fetch_of_pc_ge hpc)
    exact ⟨hpc, le_rfl, Nat.le_add_right _ 2⟩
  · cases h.symm.trans (fetch_of_unknown_opcode hpc hop)
    exact ⟨BitVec.isLt _, hop⟩
  · cases h.symm.trans (fetch_of_cutOff hl hcut)
    obtain ⟨hpc, -, hend⟩ := hcut
    exact ⟨le_rfl, hpc.le, hend.trans (Nat.add_le_add_left shape.operandCount_le_two _)⟩
  · cases h.symm.trans ((s.fetch_eq_instr_iff i).2 hbytes)

/-- The raised register byte names no register (R68). -/
theorem legal_of_bad_register {i : Instr} {r : Byte}
    (h : i.registerOperands.find? (fun r => decide (8 ≤ r.toNat)) = some r) (pc : Nat) :
    FaultRecord.legal ⟨.invalidRegister, pc, r.toNat⟩ :=
  ⟨by simpa using List.find?_some h, r.isLt⟩

/-- A step raises a fatal condition with a legal record, or it completes the well-formed instruction it
fetched. -/
theorem step_raises_legal_or_completes {s t : State} (h : step s = .next t) :
    (∃ kind info, FaultRecord.legal ⟨kind, s.pc, info⟩ ∧ t = s.raiseFatal kind info) ∨
      ∃ i, s.fetch = .instr i ∧ i.wellFormed = true ∧ exec i s = .next t := by
  obtain ⟨-, ⟨kind, info, hf, ht⟩ | ⟨i, hf, he⟩⟩ := step_cases h
  · exact .inl ⟨kind, info, State.legal_of_fetch_fatal hf, ht⟩
  · rcases wellFormed_or_bad_register i with hw | ⟨r, hr⟩
    · exact .inr ⟨i, hf, hw, he⟩
    · cases he.symm.trans (exec_of_bad_register hr s)
      exact .inl ⟨_, _, legal_of_bad_register hr s.pc, rfl⟩

/-! ### The range of `pc` -/

/-- The bytes of a fetched instruction lie inside the memory (R67). -/
theorem State.operands_fit_of_fetch {s : State} {i : Instr} (h : s.fetch = .instr i) :
    s.pc + i.operands.length < 256 :=
  ((s.fetch_eq_instr_iff i).1 h i.operands.length (Nat.lt_succ_self _)).1

/-- A completed instruction leaves `pc` at most at the first address past the memory (R72). -/
theorem pc_le_of_completes {i : Instr} {s t : State} (hf : s.fetch = .instr i)
    (hw : i.wellFormed = true) (he : exec i s = .next t) : t.pc ≤ 256 := by
  have hfit := State.operands_fit_of_fetch hf
  by_cases hadv : s.advancesPast i
  · obtain ⟨u, hu, hpc⟩ := exec_pc_of_advancesPast hw hadv
    cases he.symm.trans hu
    omega
  · have := pc_of_not_advancesPast hw he hadv
    omega

/-! ### The invariant -/

/-- While `run` is not FAULTED there is no record and no diagnostic (R30, R32). -/
theorem State.runConsistent_iff_of_ne_faulted {s : State} (h : s.run ≠ .faulted) :
    s.runConsistent ↔ s.fault = none ∧ s.out.all Event.isPrint = true := by
  cases hrun : s.run <;> simp_all [runConsistent]

/-- FAULTED has the record of the instruction at `pc`, and its diagnostic last (R30, R95, R106). -/
theorem State.runConsistent_iff_of_faulted {s : State} (h : s.run = .faulted) :
    s.runConsistent ↔ ∃ r, s.fault = some r ∧ r.pc = s.pc ∧ r.legal ∧
      s.out.getLast? = some (.diagnostic r) ∧ s.out.dropLast.all Event.isPrint = true := by
  simp [runConsistent, h]

/-- The fatal step writes a record and a diagnostic where there were none. -/
theorem State.Inv.raiseFatal {s : State} (hs : s.Inv) (hrun : s.run = .running) {kind : FatalKind}
    {info : Nat} (hlegal : FaultRecord.legal ⟨kind, s.pc, info⟩) : (s.raiseFatal kind info).Inv where
  pcInRange := hs.pcInRange
  memoryCanonical := hs.memoryCanonical
  consistent := by
    obtain ⟨-, hout⟩ := (runConsistent_iff_of_ne_faulted (by simp [hrun])).1 hs.consistent
    exact (runConsistent_iff_of_faulted rfl).2 ⟨_, rfl, rfl, hlegal, by simp, by simpa using hout⟩

/-- A completed instruction leaves a `pc` in range, writes memory at most inside it, and emits at most a
printed value. -/
theorem State.Inv.completes {i : Instr} {s t : State} (hs : s.Inv) (hrun : s.run = .running)
    (hf : s.fetch = .instr i) (hw : i.wellFormed = true) (he : exec i s = .next t) : t.Inv where
  pcInRange := pc_le_of_completes hf hw he
  memoryCanonical := by
    obtain hmem | ⟨-, v, hmem⟩ := mem_of_completes hw he
    · exact hmem ▸ hs.memoryCanonical
    · exact hmem ▸ Memory.write_wf hs.memoryCanonical s.sp.isLt v
  consistent := by
    have frame := completionFrame_of_wellFormed hw he
    have hne : t.run ≠ .faulted := by
      rw [frame.run, hrun]
      split <;> simp
    obtain ⟨hfault, hout⟩ := (runConsistent_iff_of_ne_faulted (by simp [hrun])).1 hs.consistent
    refine (runConsistent_iff_of_ne_faulted hne).2 ⟨frame.fault.trans hfault, ?_⟩
    obtain h | ⟨v, h⟩ := out_of_completes hw he
    · exact h ▸ hout
    · simpa [h, Event.isPrint] using hout

/-- No event of a list of printed values is a diagnostic. -/
theorem diagnostic_notMem_of_all_isPrint {out : List Event} (h : out.all Event.isPrint = true)
    (r : FaultRecord) : Event.diagnostic r ∉ out :=
  fun hr => nomatch List.all_eq_true.1 h _ hr

end Sys2Proof.Machine

namespace Sys2Proof.Proofs

open Sys2Proof.Machine

/-- Settles O13: a step raises a fatal condition with a legal record, or completes an instruction; each
keeps the invariant. -/
theorem stepKeepsInvariant : Obligations.StepKeepsInvariant := by
  intro s t hs h
  have hrun := (step_cases h).1
  obtain ⟨kind, info, hlegal, rfl⟩ | ⟨i, hf, hw, he⟩ := step_raises_legal_or_completes h
  · exact hs.raiseFatal hrun hlegal
  · exact hs.completes hrun hf hw he

/-- Settles O14. -/
theorem resetMeetsInvariant : Obligations.ResetMeetsInvariant where
  pcInRange := Nat.zero_le _
  memoryCanonical := Memory.wf_nil
  consistent := ⟨rfl, rfl⟩

/-- Settles O8: only the fatal step leaves FAULTED. -/
theorem fatalStepIsPrecise : Obligations.FatalStepIsPrecise := by
  intro s t h ht
  obtain ⟨kind, info, rfl⟩ := raises_of_faulted h ht
  exact ⟨kind, info, rfl, rfl, rfl, rfl, rfl, rfl, rfl⟩

/-- Settles O10: a step that ends RUNNING completed an instruction; 256 is past the memory. -/
theorem pcStaysInRange : Obligations.PcStaysInRange := by
  refine ⟨fun s t h ht => ?_, fun s hrun hpc => ?_⟩
  · obtain ⟨i, hf, hw, he⟩ := completes_of_not_faulted h (by simp [ht])
    exact pc_le_of_completes hf hw he
  · rw [step_of_fetch_fatal hrun (State.fetch_of_pc_ge hpc.ge), State.raiseFatal_eq_afterFatal, hpc]

/-- Settles O11: of the completed instructions HLT alone writes `run`; every other end is a fatal
step. -/
theorem runEndsOnlyByHltOrFatal : Obligations.RunEndsOnlyByHltOrFatal := by
  intro s t h hne
  obtain ⟨kind, info, rfl⟩ | ⟨i, hf, hw, he⟩ := step_raises_or_completes h
  · exact .inr ⟨rfl, kind, info, rfl⟩
  · have frame := completionFrame_of_wellFormed hw he
    have hhlt : i = .hlt := by
      by_contra hi
      exact hne (by rw [frame.run, if_neg hi, (step_cases h).1])
    subst hhlt
    exact .inl ⟨State.operands_fit_of_fetch hf, State.read_pc_of_fetch hf, frame.run, frame.fault⟩

/-- Settles O12: one step leaves the very same state, so by induction any number does. -/
theorem jumpToItselfRunsForever : Obligations.JumpToItselfRunsForever := by
  intro s a ha hrun hbytes hpc n
  have hstep : core.step s = .next s := by
    have h := (step_of_holdsBytes (i := .jmp a) hrun hbytes).trans (exec_jmp_of_lt ha s)
    rwa [hpc] at h
  induction n with
  | zero => rfl
  | succ n ih => simp only [Host.Core.run, hstep, ih]

/-- Settles O48: one clause per engine state. -/
theorem exitStatusFollowsTheEngineState : Obligations.ExitStatusFollowsTheEngineState := fun s =>
  ⟨fun h => by simp [State.exitStatus, h], fun h => by simp [State.exitStatus, h],
    fun h => ⟨Config.exitFault, by simp [State.exitStatus, h], Nat.one_ne_zero⟩⟩

/-- Settles O49: the events are those the invariant allows for the engine state. -/
theorem hostSeesHowTheRunEnded : Obligations.HostSeesHowTheRunEnded := by
  intro s hs
  obtain ⟨-, hhalted, hfaulted⟩ := exitStatusFollowsTheEngineState s
  refine ⟨fun h => ⟨hhalted h, ?_⟩, fun h => ?_⟩
  · obtain ⟨-, hout⟩ := (State.runConsistent_iff_of_ne_faulted (by simp [h])).1 hs.consistent
    exact diagnostic_notMem_of_all_isPrint hout
  · obtain ⟨n, hn, hne⟩ := hfaulted h
    obtain ⟨r, hr, -, -, hlast, hbefore⟩ := (State.runConsistent_iff_of_faulted h).1 hs.consistent
    exact ⟨by simp [hn], by simpa [hn] using hne, r, s.out.dropLast, hr,
      (List.dropLast_append_getLast? _ hlast).symm, diagnostic_notMem_of_all_isPrint hbefore⟩

end Sys2Proof.Proofs
end

section
/-! The program load, and the first step after it. -/

namespace Sys2Proof.Machine

/-- The block accepts up to 256 words, each of them a byte (R109). -/
theorem loadable_iff (words : List Nat) :
    loadable words = true ↔ words.length ≤ 256 ∧ ∀ w ∈ words, w < 256 := by
  simp [loadable]

/-- A program the block refuses has no state (R109). -/
theorem loadProgram_eq_none_iff (words : List Nat) :
    loadProgram words = none ↔ ¬ loadable words = true := by
  simp [loadProgram]

/-- An accepted program stands in memory, and everything else is as after reset (R108). -/
theorem loadProgram_eq_some {words : List Nat} {s : State} (h : loadProgram words = some s) :
    loadable words = true ∧
      s = State.reset.setMem (Memory.writeBytes [] 0 (words.map (BitVec.ofNat 8))) := by
  rw [loadProgram, Option.ite_none_right_eq_some] at h
  exact h.imp_right fun hs => (Option.some_inj.1 hs).symm

/-- After the load a cell holds the word of its address, and 0 past the program (R108). -/
theorem read_of_loadProgram {words : List Nat} {s : State} (h : loadProgram words = some s)
    (addr : Nat) : s.mem.read addr = ((words.map (BitVec.ofNat 8))[addr]?).getD 0 := by
  obtain ⟨hload, rfl⟩ := loadProgram_eq_some h
  obtain ⟨hlen, -⟩ := (loadable_iff words).1 hload
  rw [State.setMem_mem, Memory.read_writeBytes]
  split
  · simp
  · rw [List.getElem?_eq_none (by rw [List.length_map]; omega)]
    rfl

/-- A load of a program that begins with these bytes puts them at address 0, where `pc` starts
(R108, R110). -/
theorem holdsBytes_of_loadProgram {bytes rest : List Byte} {s : State}
    (h : loadProgram ((bytes ++ rest).map BitVec.toNat) = some s) : s.HoldsBytes bytes := by
  intro j hj
  obtain ⟨hload, hs⟩ := loadProgram_eq_some h
  obtain ⟨hlen, -⟩ := (loadable_iff _).1 hload
  have hpc : s.pc = 0 := congrArg State.pc hs
  have hwords : ((bytes ++ rest).map BitVec.toNat).map (BitVec.ofNat 8) = bytes ++ rest := by
    simp [Function.comp_def]
  simp only [List.length_map, List.length_append] at hlen
  rw [hpc, Nat.zero_add, read_of_loadProgram h, hwords, List.getElem?_append_left hj,
    List.getElem?_eq_getElem hj]
  exact ⟨by omega, rfl⟩

end Sys2Proof.Machine

namespace Sys2Proof.Proofs

open Sys2Proof.Machine

/-- Settles O15: the load writes memory alone, and every write keeps the canonical form. -/
theorem loadedProgramMeetsInvariant : Obligations.LoadedProgramMeetsInvariant := by
  intro words s h
  obtain ⟨-, rfl⟩ := loadProgram_eq_some h
  exact ⟨resetMeetsInvariant.pcInRange, Memory.writeBytes_wf _ Memory.wf_nil 0,
    resetMeetsInvariant.consistent⟩

/-- Settles O18: the refusal is the failing of `loadable`; the cells are those the load wrote. -/
theorem loadPlacesTheProgram : Obligations.LoadPlacesTheProgram := by
  intro words
  refine ⟨?_, fun s h => ⟨fun i hi => ?_, fun addr haddr => ?_, ?_⟩⟩
  · rw [loadProgram_eq_none_iff, loadable_iff, not_and_or]
    simp only [not_le, not_forall, not_lt, exists_prop, Nat.succ_le_iff]
  · obtain ⟨hload, -⟩ := loadProgram_eq_some h
    have hw : words[i] < 256 := ((loadable_iff words).1 hload).2 _ (List.getElem_mem hi)
    rw [read_of_loadProgram h, List.getElem?_map, List.getElem?_eq_getElem hi]
    exact Nat.mod_eq_of_lt hw
  · rw [read_of_loadProgram h, List.getElem?_eq_none (by rwa [List.length_map])]
    rfl
  · obtain ⟨-, rfl⟩ := loadProgram_eq_some h
    rfl

/-- Settles O19: the bytes stand at `pc` = 0; with nothing loaded, 0 is no opcode byte. -/
theorem firstStepRunsTheProgramsStart : Obligations.FirstStepRunsTheProgramsStart := by
  refine ⟨fun i rest s h => ?_, State.reset, rfl, ?_⟩
  · obtain ⟨-, hs⟩ := loadProgram_eq_some h
    exact step_of_holdsBytes (congrArg State.run hs) (holdsBytes_of_loadProgram h)
  · exact unknownOpcodeIsFatal.1 State.reset rfl (by decide) (by decide)

end Sys2Proof.Proofs
end

section
/-! Several stack instructions one after another. -/

namespace Sys2Proof.Machine

/-- The address `j` cells below `sp`, modulo the memory's size (R19). -/
def State.cellBelow (s : State) (j : Nat) : Nat :=
  (s.sp.toNat + 256 - j) % 256

/-- What PUSHes of these registers leave, from any `sp`: the `j`th value, from 0, is `j` cells below the
old `sp`, and every other cell and the registers are as before (R85, R88). -/
structure PushedAll (regs : List Byte) (s t : State) : Prop where
  x : t.x = s.x
  sp : t.sp.toNat = s.cellBelow regs.length
  pushed : ∀ j, (h : j < regs.length) →
    s.x[(regs[j]).toNat]? = some (t.mem.read (s.cellBelow j))
  kept : ∀ addr, (∀ j < regs.length, addr ≠ s.cellBelow j) → t.mem.read addr = s.mem.read addr

theorem State.cellBelow_zero (s : State) : s.cellBelow 0 = s.sp.toNat := by
  have := s.sp.isLt
  simp only [cellBelow]
  omega

/-- The cells of a memory's size are all different. -/
theorem State.cellBelow_ne (s : State) {j k : Nat} (hjk : j < k) (hk : k < 256) :
    s.cellBelow j ≠ s.cellBelow k := by
  have := s.sp.isLt
  simp only [cellBelow]
  omega

/-- One PUSH puts the next cell one lower. -/
theorem State.cellBelow_of_spBelow {s t : State} (h : t.sp = spBelow s.sp) {j : Nat} (hj : j < 256) :
    t.cellBelow j = s.cellBelow (j + 1) := by
  simp only [cellBelow, h, spBelow_toNat]
  omega

/-- One PUSH and then the others: no later one meets the cell of the first, as they are fewer than 256. -/
theorem PushedAll.cons {a : Byte} (ha : a.toNat < 8) {regs : List Byte} (hlen : regs.length < 256)
    {s u t : State} (hu : exec (.push a) s = .next u) (h : PushedAll regs u t) :
    PushedAll (a :: regs) s t := by
  obtain ⟨hx, hsp, hmem⟩ : u.x = s.x ∧ u.sp = spBelow s.sp ∧
      u.mem = s.mem.write s.sp.toNat s.x[a.toNat] := by
    cases hu.symm.trans (exec_push_of_lt ha s)
    exact ⟨rfl, rfl, rfl⟩
  have hcell {j : Nat} (hj : j < 256) : u.cellBelow j = s.cellBelow (j + 1) :=
    State.cellBelow_of_spBelow hsp hj
  refine ⟨h.x.trans hx, h.sp.trans (hcell hlen), fun j hj => ?_, fun addr haddr => ?_⟩
  · cases j with
    | zero =>
      have hkept : t.mem.read s.sp.toNat = u.mem.read s.sp.toNat := h.kept _ fun k hk => by
        rw [hcell (by omega), ← s.cellBelow_zero]
        exact s.cellBelow_ne (Nat.succ_pos k) (by omega)
      rw [s.cellBelow_zero, hkept, hmem, Memory.read_write_same]
      exact Vector.getElem?_eq_getElem ha
    | succ j =>
      have hj : j < regs.length := Nat.lt_of_succ_lt_succ hj
      rw [← hcell (by omega), ← hx]
      exact h.pushed j hj
  · have hne : addr ≠ s.sp.toNat := s.cellBelow_zero ▸ haddr 0 (Nat.succ_pos _)
    rw [h.kept addr fun k hk => ?_, hmem, Memory.read_write_of_ne hne]
    rw [hcell (by omega)]
    exact haddr (k + 1) (Nat.succ_lt_succ hk)

/-- Up to 256 PUSHes complete, from every state. -/
theorem pushAll_completes {regs : List Byte} (hregs : ∀ r ∈ regs, r.toNat < 8)
    (hlen : regs.length ≤ 256) (s : State) :
    ∃ t, Reference.pushAll regs s = .next t ∧ PushedAll regs s t := by
  induction regs generalizing s with
  | nil => exact ⟨s, rfl, rfl, s.cellBelow_zero.symm, nofun, fun _ _ => rfl⟩
  | cons a regs ih =>
    have ha : a.toNat < 8 := hregs a List.mem_cons_self
    have hpush := exec_push_of_lt ha s
    obtain ⟨t, ht, hall⟩ := ih (fun r hr => hregs r (List.mem_cons_of_mem a hr)) (Nat.le_of_lt hlen) _
    refine ⟨t, ?_, hall.cons ha hlen hpush⟩
    rw [Reference.pushAll, hpush]
    exact ht

end Sys2Proof.Machine

namespace Sys2Proof.Proofs

open Sys2Proof.Machine

/-- Settles O44: POP reads the cell that PUSH wrote, since it adds what PUSH subtracted. -/
theorem pushThenPopRestores : Obligations.PushThenPopRestores := by
  intro s a b ha hb
  have hback : ((spBelow s.sp).toNat + 1) % 256 = s.sp.toNat := by
    rw [spBelow_toNat]
    omega
  refine ⟨_, _, exec_push_of_lt ha s, exec_pop_of_lt hb _, ?_, ?_, fun j hj => ?_⟩
  · simp [hback]
  · simp [hback]
  · exact Vector.getElem_set_ne hb j.isLt hj.symm

/-- Settles O45: from `sp` = 0 the address `j` cells below it is `(256 - j) mod 256`. -/
theorem stackPlacementFromReset : Obligations.StackPlacementFromReset := by
  intro s regs hsp hregs hlen
  have hcell (j : Nat) : s.cellBelow j = (256 - j) % 256 := by simp [State.cellBelow, hsp]
  obtain ⟨t, ht, hall⟩ := pushAll_completes hregs hlen s
  simp only [← hcell]
  exact ⟨t, ht, hall.sp, hall.pushed, hall.kept⟩

/-- The step at a known byte outside the map (R57). -/
theorem step_of_unknown_byte {s : State} (hrun : s.run = .running) (hpc : s.pc < 256) {v : Byte}
    (hv : s.mem.read s.pc = v) (hop : v.toNat ∉ opcodeBytes) :
    step s = .next (s.afterFatal .invalidInstruction v.toNat) := by
  subst hv
  exact unknownOpcodeIsFatal.1 s hrun hpc hop

/-- Settles O46: the fetch reads memory as PUSH left it. -/
theorem pushedByteIsFetchedNext : Obligations.PushedByteIsFetchedNext := by
  intro s a ha hrun hbytes hsp
  obtain ⟨t, he, hpc, hmem, hrunt⟩ : ∃ t, exec (.push a) s = .next t ∧ t.pc = s.pc + 2 ∧
      t.mem = s.mem.write s.sp.toNat s.x[a.toNat] ∧ t.run = .running :=
    ⟨_, exec_push_of_lt ha s, rfl, rfl, hrun⟩
  have hpct : t.pc < 256 := hpc ▸ hsp ▸ s.sp.isLt
  have hread : t.mem.read t.pc = s.x[a.toNat] := by
    rw [hmem, hpc, ← hsp, Memory.read_write_same]
  exact ⟨t, (step_of_holdsBytes (i := .push a) hrun hbytes).trans he, hpc,
    fun hhlt => (hltEndsTheStep t).2 hrunt hpct (hread.trans hhlt),
    step_of_unknown_byte hrunt hpct hread⟩

end Sys2Proof.Proofs
end

section
/-! The canonical form of memory is unique (log entry 4). -/

namespace Sys2Proof.Machine

/-- A listed cell reads as listed, since addresses rise and so none is listed twice. -/
theorem Memory.read_of_mem {m : Memory} (hs : m.Pairwise fun c d => c.1 < d.1) {c : Host.Cell}
    (hc : c ∈ m) : m.read c.1 = c.2 := by
  induction m with
  | nil => cases hc
  | cons d m ih =>
    obtain ⟨hlt, hs⟩ := List.pairwise_cons.1 hs
    rw [read_cons]
    obtain rfl | hc := List.mem_cons.1 hc
    · exact if_pos rfl
    · rw [if_neg (hlt c hc).ne, ih hs hc]

/-- A canonical memory lists exactly the cells that do not read as unlisted. -/
theorem Memory.mem_iff_read {m : Memory} (hm : m.wf) (c : Host.Cell) :
    c ∈ m ↔ m.read c.1 = c.2 ∧ c.2 ≠ Memory.unlisted := by
  obtain ⟨hs, hcells⟩ := hm
  refine ⟨fun hc => ⟨read_of_mem hs hc, (hcells c hc).2⟩, fun ⟨hread, hne⟩ => ?_⟩
  obtain ⟨d, hd, hdc⟩ : ∃ d ∈ m, d.1 = c.1 := by
    by_contra hno
    exact hne (hread.symm.trans (read_of_forall_ne fun d hd hdc => hno ⟨d, hd, hdc⟩))
  have heq : d = c := Prod.ext hdc ((read_of_mem hs hd).symm.trans (hdc ▸ hread))
  exact heq ▸ hd

/-- Lists with rising addresses and the same cells are the same list. -/
theorem Memory.eq_of_mem_iff {m n : Memory} (hm : m.Pairwise fun c d => c.1 < d.1)
    (hn : n.Pairwise fun c d => c.1 < d.1) (h : ∀ c, c ∈ m ↔ c ∈ n) : m = n :=
  have : Std.Irrefl fun c d : Host.Cell => c.1 < d.1 := ⟨fun c => lt_irrefl c.1⟩
  have : Std.Antisymm fun c d : Host.Cell => c.1 < d.1 := ⟨fun _ _ hlt hgt => absurd hgt hlt.not_gt⟩
  hm.eq_of_mem_iff hn h

end Sys2Proof.Machine

namespace Sys2Proof.Proofs

open Sys2Proof.Machine

/-- Settles O47: what a canonical memory lists is given by its reads. -/
theorem canonicalMemoriesThatReadAlikeAreEqual :
    Obligations.CanonicalMemoriesThatReadAlikeAreEqual := fun _ _ hm hn hread =>
  Memory.eq_of_mem_iff hm.1 hn.1 fun c => by
    rw [Memory.mem_iff_read hm, Memory.mem_iff_read hn, hread]

end Sys2Proof.Proofs
end

section
/-! The line of a printed value, and the statements about literal values. -/

namespace Sys2Proof.Machine

/-- The character of a decimal digit is in the range of the statement, and its code gives the digit. -/
theorem digitChar_of_lt {d : Nat} (h : d < 10) :
    ('0' ≤ d.digitChar ∧ d.digitChar ≤ '9') ∧ d.digitChar.toNat - '0'.toNat = d :=
  ⟨(by decide : ∀ d < 10, '0' ≤ Nat.digitChar d ∧ Nat.digitChar d ≤ '9') d h,
    Nat.toNat_digitChar_sub_48_of_lt_ten h⟩

end Sys2Proof.Machine

namespace Sys2Proof.Proofs

open Sys2Proof.Machine

/-- Settles O50: one, two or three digits, the first of which is 0 only where it is the only one. -/
theorem printLineIsPlainDecimal : Obligations.PrintLineIsPlainDecimal := by
  intro v
  have hv : v.toNat < 256 := v.isLt
  refine ⟨decimalDigits v.toNat, rfl, ?_⟩
  unfold decimalDigits
  split
  next h1 =>
    have ⟨hc, hd⟩ := digitChar_of_lt h1
    refine ⟨List.cons_ne_nil _ _, by simpa using hc, by simpa using hd, fun h => ?_⟩
    simpa using h
  next h1 =>
    split
    next h2 =>
      have ⟨hc, hd⟩ := digitChar_of_lt (show v.toNat / 10 < 10 by omega)
      have ⟨hc', hd'⟩ := digitChar_of_lt (Nat.mod_lt v.toNat (by decide : 10 > 0))
      refine ⟨List.cons_ne_nil _ _, by simpa using ⟨hc, hc'⟩, ?_, fun h => ?_⟩
      · simp only [List.foldl_cons, List.foldl_nil, hd, hd']
        omega
      · rw [List.head?_cons, Option.some_inj, Nat.digitChar_eq_zero] at h
        omega
    next h2 =>
      have ⟨hc, hd⟩ := digitChar_of_lt (show v.toNat / 100 < 10 by omega)
      have ⟨hc', hd'⟩ := digitChar_of_lt (Nat.mod_lt (v.toNat / 10) (by decide : 10 > 0))
      have ⟨hc'', hd''⟩ := digitChar_of_lt (Nat.mod_lt v.toNat (by decide : 10 > 0))
      refine ⟨List.cons_ne_nil _ _, by simpa using ⟨hc, hc', hc''⟩, ?_, fun h => ?_⟩
      · simp only [List.foldl_cons, List.foldl_nil, hd, hd', hd'']
        omega
      · rw [List.head?_cons, Option.some_inj, Nat.digitChar_eq_zero] at h
        omega

/-- Settles O1: each byte sequence is an encoding, but for the last two. -/
theorem sampleWordsDecode : Obligations.SampleWordsDecode :=
  ⟨decode_encode (.ldi 7 255), decode_encode (.prn 5), decode_encode (.add 0 1),
    decode_encode (.cmp 3 4), decode_encode (.push 6), decode_encode (.jne 2), decode_encode .hlt,
    by decide, by decide⟩

/-- Settles O17: every field of the reset state is a literal (R107). -/
theorem resetFlagEngineAndMemory : Obligations.ResetFlagEngineAndMemory :=
  ⟨rfl, rfl, rfl, Memory.read_nil, rfl⟩

end Sys2Proof.Proofs
end
